-- ==== Sys2Proof/Word.lean ====
section
/-! DEFINITION. The widths the spec gives its values (00_scope.md R6, R8): every value is an unsigned bit vector. -/

namespace Sys2Proof

/-- An input symbol, an operand or a result: 8 bits (R6). -/
abbrev Byte := BitVec 8

/-- The contents of the working register R: 16 bits (R6, R13). -/
abbrev Reg := BitVec 16

/-- The contents of the bit-step counter K: 3 bits (R6, R14). -/
abbrev Counter := BitVec 3

/-- A command word: 11 bits (R6, R39). -/
abbrev CmdWord := BitVec 11

end Sys2Proof
end

