-- ==== Sys2Proof/Syntax.lean ====
section
/-! DEFINITION. The command set (30_encoding.md R41): one constructor for each row of spec/opcode_table.json; and the assembler's statements (R46 to R48). -/

namespace Sys2Proof

/-- The commands. FEED and BYTE carry the operand byte `b = cmd[7:0]` (R40). INIT, STEP and READ carry nothing: their data
bits are ignored (R42). A reserved command keeps its low byte, because `ILLEGAL(cmd)` keeps the whole word (R45) and its
printed form shows it (R50). -/
inductive Instr where
  | init
  | feed (b : Byte)
  | step
  | byte (b : Byte)
  | read
  | reserved101 (low : Byte)
  | reserved110 (low : Byte)
  | reserved111 (low : Byte)
deriving DecidableEq, Repr

/-- An assembler statement as written, before its operands are checked (R46): the five mnemonics, the pseudo-instructions
CHECKSUM (R47) and DRAIN (R48), and a raw `.word` (R46). -/
inductive AsmStmt where
  | init
  | feed (b : Nat)
  | step
  | byte (b : Nat)
  | read
  | checksum (bs : List Nat)
  | drain
  | word (w : Nat)
deriving DecidableEq, Repr

end Sys2Proof
end

