-- ==== Sys2Proof/WellFormed.lean ====
section
/-! DEFINITION. What is checked before a term means something. An `Instr` needs no check: its one operand is a byte by type
(30_encoding.md R40). Checked are a number offered as a command word (R49) and an assembler statement's operands (R46). -/

namespace Sys2Proof

/-- "Each word is an 11-bit value from 0x000 to 0x7FF" (R49). -/
def wordWellFormed (n : Nat) : Bool := decide (n ≤ 0x7FF)

/-- "`<byte>` is a number from 0 to 255" (R46). -/
def byteWellFormed (n : Nat) : Bool := decide (n ≤ 255)

/-- An operand outside its range "is refused by the assembler" (R46). -/
def AsmStmt.wellFormed : AsmStmt → Bool
  | .init => true
  | .feed b => byteWellFormed b
  | .step => true
  | .byte b => byteWellFormed b
  | .read => true
  | .checksum bs => bs.all byteWellFormed
  | .drain => true
  | .word w => wordWellFormed w

end Sys2Proof
end

