-- ==== Sys2Proof/Decode.lean ====
section
/-! DEFINITION. The command decoder, total on all 2048 words, its encoder, and the opcode table as data
(30_encoding.md R39 to R45). -/

namespace Sys2Proof

/-- `op = cmd[10:8]` (R39). -/
def opField (w : CmdWord) : BitVec 3 := w.extractLsb' 8 3

/-- `data = cmd[7:0]` (R39, R40). -/
def dataField (w : CmdWord) : Byte := w.extractLsb' 0 8

/-- The decoder of R45: it reads only `op` to choose the command (R44). -/
def decode (w : CmdWord) : Instr :=
  match (opField w).toFin with
  | 0 => .init
  | 1 => .feed (dataField w)
  | 2 => .step
  | 3 => .byte (dataField w)
  | 4 => .read
  | 5 => .reserved101 (dataField w)
  | 6 => .reserved110 (dataField w)
  | 7 => .reserved111 (dataField w)

/-- Why a number is no command. -/
inductive DecodeError where
  /-- The number has a bit above bit 10: no 11-bit word (R39, R49; log 13). -/
  | widerThanCommand
deriving DecidableEq, Repr

/-- The decoder on any number: it rejects, by name, what is no 11-bit word (R49). -/
def decodeNat (n : Nat) : Except DecodeError Instr :=
  if wordWellFormed n then .ok (decode (BitVec.ofNat 11 n)) else .error .widerThanCommand

/-- The op field of a command's words (R41). -/
def Instr.op : Instr → BitVec 3
  | .init => 0b000
  | .feed _ => 0b001
  | .step => 0b010
  | .byte _ => 0b011
  | .read => 0b100
  | .reserved101 _ => 0b101
  | .reserved110 _ => 0b110
  | .reserved111 _ => 0b111

/-- The data field an assembler emits: the operand, and 0 in ignored bits (R40, R42). -/
def Instr.data : Instr → Byte
  | .init => 0
  | .feed b => b
  | .step => 0
  | .byte b => b
  | .read => 0
  | .reserved101 low => low
  | .reserved110 low => low
  | .reserved111 low => low

/-- The encoder of R45, extended to the reserved words. -/
def encode (i : Instr) : CmdWord := i.op ++ i.data

/-- Whether a command is one of the three reserved ones, which are illegal (R43). -/
def Instr.isReserved : Instr → Bool
  | .init => false
  | .feed _ => false
  | .step => false
  | .byte _ => false
  | .read => false
  | .reserved101 _ => true
  | .reserved110 _ => true
  | .reserved111 _ => true

/-- One row of the opcode map of R41. -/
structure OpcodeRow where
  pattern : CmdWord
  mask : CmdWord
  op : BitVec 3
deriving DecidableEq, Repr

/-- The opcode map of R41, row by row. -/
def opcodeTable : List OpcodeRow :=
  [ ⟨0x000, 0x700, 0b000⟩,
    ⟨0x100, 0x700, 0b001⟩,
    ⟨0x200, 0x700, 0b010⟩,
    ⟨0x300, 0x700, 0b011⟩,
    ⟨0x400, 0x700, 0b100⟩,
    ⟨0x500, 0x700, 0b101⟩,
    ⟨0x600, 0x700, 0b110⟩,
    ⟨0x700, 0x700, 0b111⟩ ]

/-- "A word w selects a row when `(w and mask) = match`" (R41). -/
def OpcodeRow.selects (row : OpcodeRow) (w : CmdWord) : Bool := w &&& row.mask == row.pattern

/-- What the decoder reads from a table row's bits: `w` taken to `nbits` bits, every bit above them 0; none where the
number is no 11-bit command word (log 13). -/
def decodeTableWord (nbits w : Nat) : Option Instr :=
  match decodeNat (w % 2 ^ nbits) with
  | .ok i => some i
  | .error _ => none

/-- The command words of `CHECKSUM b0, ..., bn-1`: INIT, one BYTE per byte, READ (R47). -/
def checksumWords (msg : List Byte) : List CmdWord :=
  encode .init :: (msg.map (fun b => encode (.byte b)) ++ [encode .read])

/-- The command words of `DRAIN`: eight STEPs (R48). -/
def drainWords : List CmdWord := List.replicate 8 (encode .step)

end Sys2Proof
end

