-- ==== Sys2Proof/Config.lean ====
section
/-! DEFINITION. The parameters the spec fixes (00_scope.md R6) and the free values it leaves open (70_reset_and_hazards.md R95). -/

namespace Sys2Proof.Config

/-- `POLY`, the XOR constant; normative (R2, R6, 90_conflicts.md C1). -/
def poly : Reg := 0x8380

/-- Division steps per byte (R6). -/
def stepsPerByte : Nat := 8

/-- What K holds after the accepting edge of a BYTE: the steps still owed (R14, R98). -/
def owedAfterByte : Counter := 7

/-- R after a reset edge (R26, R94). -/
def resetR : Reg := 0x0000

/-- K after a reset edge (R26, R94). -/
def resetK : Counter := 0

/-- FAULT after a reset edge (R26, R94). -/
def resetFault : Bool := false

/-- FREE VALUE (log 16): R before the first reset, one draw per engine and power-up (R91, R95, U4, U9): the first argument is
the engine's `drawSource`, the second its `draws`. Nothing relates the draws of two engines or of two power-ups. -/
opaque powerOnR : Nat → Nat → Reg

/-- FREE VALUE (log 16): K before the first reset, drawn as R is (R91, R95, U4, U9). -/
opaque powerOnK : Nat → Nat → Counter

/-- FREE VALUE (log 16): FAULT before the first reset, drawn as R is (R91, R95, U4, U9). -/
opaque powerOnFault : Nat → Nat → Bool

end Sys2Proof.Config
end

