-- ==== Sys2Proof/Machine/State.lean ====
section
/-! DEFINITION. The state of the engine and of the one host that drives it, as plain data (10_state.md R13 to R26), and the
reasons a step can stop. -/

namespace Sys2Proof.Machine

/-- What the outside does at one event: the levels on the input ports that the host chooses (R23), or a loss of power or a
stopped clock (R93, U9). -/
inductive HostEvent where
  /-- A rising edge of `clk_i`: `rst` is the level of `rst_i`; `offer` says whether the host offers its next word, which
  sets `cmd_valid_i` when it has one (R100). -/
  | edge (rst offer : Bool)
  /-- Power is lost, or the clock stops, and comes back: what the engine then holds is unspecified (R93, U9; log 7). -/
  | powerLoss
deriving DecidableEq, Repr

/-- One call `checksum(data, length)` the host has still to make (R61): its input buffer, `none` where it is absent (R81),
and its length (R28). -/
structure ChecksumCall where
  data : Option (List Byte)
  length : Nat
deriving DecidableEq, Repr

/-- The machine: the engine (R, K, FAULT), the output trace, the host, and three fields of the model's own. -/
structure State where
  /-- R, the working register (R13). -/
  r : Reg
  /-- K, the bit-step counter (R14). -/
  k : Counter
  /-- FAULT, the sticky illegal-command flag (R15). -/
  fault : Bool
  /-- OUT, the host-visible output trace, oldest byte first (R19). -/
  out : List Byte
  /-- The host's command stream: word i is the word presented while `hpc = i` (R18, R49). -/
  stream : List CmdWord
  /-- The host's position in its stream (R18). -/
  hpc : Nat
  /-- The host has presented word `hpc` and no edge has accepted it yet, so it must keep it there (R100, R102; log 5). -/
  holding : Bool
  /-- The checksum calls the host makes when its stream is used up, the first one next (R61, R64; log 8). -/
  calls : List ChecksumCall
  /-- What the outside does at the coming events, the next one first (log 4). -/
  plan : List HostEvent
  /-- MODEL'S OWN: a reset edge has happened since power came up (R95; log 6). -/
  resetSeen : Bool
  /-- MODEL'S OWN: which free draw of R, K and FAULT the next power-up takes (R95; log 16). -/
  draws : Nat
  /-- MODEL'S OWN: whose free draws this engine takes, so that the draws of a platform's engines are independent (R91, R95;
  log 16). No step changes it. -/
  drawSource : Nat
deriving DecidableEq, Repr

/-- The machine's one fault (R80). -/
inductive Fault where
  /-- Raised by an accepted word with op 101, 110 or 111. The engine RECORDS it in FAULT and goes on (R83), so no step ends
  in it: it is read back with `State.recordedFault` (log 2). Safe: the state says that the run has failed. -/
  | illegalCommand
deriving DecidableEq, Repr

/-- The requests the model gives no meaning to. -/
inductive Refusal where
  /-- Raised by a dispatch arm whose command has no meaning yet; no arm does. Safe. -/
  | notModelled (mnemonic : String)
  /-- Raised by the host's call `checksum(data, length)` with `length > len(data)` or an absent buffer (R80, R81). Safe:
  a refused request has no run. -/
  | contractViolation
  /-- Raised by an edge that would accept a command before the first reset after power-on (R95, U4). Safe: such a run
  proves nothing. -/
  | commandBeforeReset
deriving DecidableEq, Repr

/-- The machine right after a reset cycle, at the start of a run: R26's table, and log 10 for the host's and the model's own
fields. -/
def State.reset : State where
  r := Config.resetR
  k := Config.resetK
  fault := Config.resetFault
  out := []
  stream := []
  hpc := 0
  holding := false
  calls := []
  plan := []
  resetSeen := true
  draws := 0
  drawSource := 0

/-- The machine before the first reset after power-on (R26, R95): R, K and FAULT are free draws. It is the engine whose `drawSource` is
0; a platform's engines before the first reset are `Platform.powerOn` (log 16). OUT and hpc are R26's; the host's `stream`,
`calls` and `plan` empty and `holding` false at power-on are the model's choice (DESIGN CHOICE, log 10). -/
def State.powerOn : State where
  r := Config.powerOnR 0 0
  k := Config.powerOnK 0 0
  fault := Config.powerOnFault 0 0
  out := []
  stream := []
  hpc := 0
  holding := false
  calls := []
  plan := []
  resetSeen := false
  draws := 1
  drawSource := 0

end Sys2Proof.Machine
end

