-- ==== Sys2Proof/Machine/Operands.lean ====
section
/-! DEFINITION. The one operand form and the one result form: a byte into R[15:8], and R[15:8] out
(30_encoding.md R40, 20_memory.md R30). -/

namespace Sys2Proof.Machine

/-- The operand byte as a 16-bit value, `zext_16(b) << 8`, which is `{b, 0x00}` (R40). -/
def widen (b : Byte) : Reg := b.setWidth 16 <<< 8

/-- `{hi, lo}`, a register from its two bytes (R8). -/
def joinBytes (hi lo : Byte) : Reg := hi ++ lo

/-- `v[15:8]`, the result byte (R9, R57). -/
def highByte (v : Reg) : Byte := v.extractLsb' 8 8

/-- `v[7:0]`, which never leaves the block (R13, R25). -/
def lowByte (v : Reg) : Byte := v.extractLsb' 0 8

end Sys2Proof.Machine
end

