-- ==== Sys2Proof/Machine/Flags.lean ====
section
/-! DEFINITION. The block has no status flags (10_state.md R20). What is tested or shown: bit 15 of R, busy, and the output
ports (70_reset_and_hazards.md R99), all functions of the state alone. -/

namespace Sys2Proof.Machine

/-- `v & 0x8000 != 0`, the one condition the datapath tests (R9, R20, R54). -/
def topBit (v : Reg) : Bool := v.getLsbD 15

/-- "The engine is *busy* when K is not 0" (R16). -/
def State.busy (s : State) : Bool := s.k != 0

/-- The output port `cmd_ready_o` (R16, R99). -/
def State.cmdReadyO (s : State) : Bool := s.k == 0

/-- The output port `pec_o` (R99). It is a PEC only where `cmd_ready_o = 1` after the message's last BYTE (R103). -/
def State.pecO (s : State) : Byte := highByte s.r

/-- The output port `fault_o` (R99). -/
def State.faultO (s : State) : Bool := s.fault

/-- The fault the state records (R80, R83). -/
def State.recordedFault (s : State) : Option Fault := if s.fault then some .illegalCommand else none

/-- The code the spec names the fault by; no port carries it (R80). -/
def Fault.code : Fault → Nat
  | .illegalCommand => 1

end Sys2Proof.Machine
end

