-- ==== Sys2Proof/Machine/Ops.lean ====
section
/-! DEFINITION. The datapath's operations, the engine's register updates, taking IllegalCommand, and reset, which is the only
way back from it (40_commands.md R53, R54, R56; 60_exceptions.md R83, R87; 70_reset_and_hazards.md R94). -/

namespace Sys2Proof.Machine

/-- The division step STEP(v): the test of bit 15 before the XOR, the XOR before the shift (R54). -/
def divStep (v : Reg) : Reg :=
  (if topBit v then v ^^^ Config.poly else v) <<< 1

/-- `repeat n: v <- STEP(v)` (R8). -/
def divSteps : Nat → Reg → Reg
  | 0, v => v
  | n + 1, v => divSteps n (divStep v)

/-- The load of a byte, `v xor (zext_16(b) << 8)` (R53). -/
def loadByte (b : Byte) (v : Reg) : Reg := v ^^^ widen b

/-- A whole byte: the load, then eight division steps (R56). -/
def consumeByte (b : Byte) (v : Reg) : Reg := divSteps Config.stepsPerByte (loadByte b v)

/-- `R <- v`. -/
def State.writeR (v : Reg) (s : State) : State := { s with r := v }

/-- `K <- v`. -/
def State.writeK (v : Counter) (s : State) : State := { s with k := v }

/-- `emit(v)`: append to OUT (R10, R19). -/
def State.emit (v : Byte) (s : State) : State := { s with out := s.out ++ [v] }

/-- TAKING IllegalCommand: FAULT is set; nothing is saved, no mode changes, and there is no handler (R83, R86). -/
def State.raiseIllegalCommand (s : State) : State := { s with fault := true }

/-- A rising edge with `rst_i = 1` (R94): the engine's three elements take their reset values and a presented command is
discarded. OUT and hpc stay (R94, R18; log 3); the host is no longer bound to a word that was discarded (log 5). This is the
only way FAULT is cleared: there is no return from the fault (R87). -/
def State.resetEdge (s : State) : State :=
  { s with r := Config.resetR, k := Config.resetK, fault := Config.resetFault, holding := false, resetSeen := true }

/-- Power is lost, or the clock stops, and comes back: R, K and FAULT are fresh free draws and a reset is needed again
(R93, R95, U9; log 7). The draws are this engine's own: those of an engine with another `drawSource`, or at another power-up, are
related to them by nothing (R91; log 16). -/
def State.losePower (s : State) : State :=
  { s with
    r := Config.powerOnR s.drawSource s.draws
    k := Config.powerOnK s.drawSource s.draws
    fault := Config.powerOnFault s.drawSource s.draws
    resetSeen := false, draws := s.draws + 1 }

end Sys2Proof.Machine
end

