-- ==== Sys2Proof/Machine/Datapath.lean ====
section
/-! DEFINITION. The commands that write R: INIT, FEED, STEP, BYTE. Each meaning is what the edge that accepts the command does
(70_reset_and_hazards.md R98); the whole-command view is Machine/Transaction.lean (log 1). -/

namespace Sys2Proof.Machine

/-- INIT: `R <- 0x0000` (R52, R98). -/
def execInit (s : State) : Host.Outcome State Fault Refusal :=
  .next (s.writeR 0x0000)

/-- FEED b: `R <- R xor (zext_16(b) << 8)` (R53, R98). -/
def execFeed (b : Byte) (s : State) : Host.Outcome State Fault Refusal :=
  .next (s.writeR (loadByte b s.r))

/-- STEP: `R <- STEP(R)` (R55, R98). -/
def execStep (s : State) : Host.Outcome State Fault Refusal :=
  .next (s.writeR (divStep s.r))

/-- BYTE b, at the edge that accepts it: the load and the first division step, and seven steps owed (R98). The busy edges
that pay them are `busyEdge`; the eight together are R56. -/
def execByte (b : Byte) (s : State) : Host.Outcome State Fault Refusal :=
  .next ((s.writeR (divStep (loadByte b s.r))).writeK Config.owedAfterByte)

end Sys2Proof.Machine
end

