-- ==== Sys2Proof/Machine/Reserved.lean ====
section
/-! DEFINITION. The reserved commands: each takes IllegalCommand, and the machine goes on (40_commands.md R58,
60_exceptions.md R83; log 2). -/

namespace Sys2Proof.Machine

/-- Op 101: `raise IllegalCommand(cmd)` (R58). -/
def execReserved101 (_low : Byte) (s : State) : Host.Outcome State Fault Refusal :=
  .next s.raiseIllegalCommand

/-- Op 110: `raise IllegalCommand(cmd)` (R58). -/
def execReserved110 (_low : Byte) (s : State) : Host.Outcome State Fault Refusal :=
  .next s.raiseIllegalCommand

/-- Op 111: `raise IllegalCommand(cmd)` (R58). -/
def execReserved111 (_low : Byte) (s : State) : Host.Outcome State Fault Refusal :=
  .next s.raiseIllegalCommand

end Sys2Proof.Machine
end

