-- ==== Sys2Proof/Machine/Result.lean ====
section
/-! DEFINITION. The command that delivers the result: READ. -/

namespace Sys2Proof.Machine

/-- READ: `emit(R[15:8])`; the host samples `pec_o` at this edge (R57, R98). -/
def execRead (s : State) : Host.Outcome State Fault Refusal :=
  .next (s.emit s.pecO)

end Sys2Proof.Machine
end

