-- ==== Sys2Proof/Machine/Dispatch.lean ====
section
/-! DEFINITION. The meaning of each command at the edge that accepts it, one arm per constructor
(70_reset_and_hazards.md R98, the match on decode). -/

namespace Sys2Proof.Machine

/-- What the accepted command does to the machine. -/
def exec (i : Instr) (s : State) : Host.Outcome State Fault Refusal :=
  match i with
  | .init => Sys2Proof.Machine.execInit s
  | .feed b => Sys2Proof.Machine.execFeed b s
  | .step => Sys2Proof.Machine.execStep s
  | .byte b => Sys2Proof.Machine.execByte b s
  | .read => Sys2Proof.Machine.execRead s
  | .reserved101 low => Sys2Proof.Machine.execReserved101 low s
  | .reserved110 low => Sys2Proof.Machine.execReserved110 low s
  | .reserved111 low => Sys2Proof.Machine.execReserved111 low s

end Sys2Proof.Machine
end

