-- ==== Sys2Proof/Machine/HostAgent.lean ====
section
/-! DEFINITION. The host: what it puts on the input ports, how it moves through its stream, and how a call
`checksum(data, length)` becomes commands (10_state.md R18, R23; 20_memory.md R28, R29; 60_exceptions.md R81, R82;
70_reset_and_hazards.md R100, R102). -/

namespace Sys2Proof.Machine

/-- What happens next: the plan's first entry; when the plan is used up, an edge with `rst_i = 0` at which the host offers
its next word (log 4). -/
def State.nextEvent (s : State) : HostEvent := s.plan.headD (.edge false true)

/-- The plan moves on by one event. -/
def State.popEvent (s : State) : State := { s with plan := s.plan.tail }

/-- The word on `cmd_i` with `cmd_valid_i = 1`, or none where `cmd_valid_i = 0`: the host's next word, if it offers one or
must hold it (R100, R102). -/
def State.presented (offer : Bool) (s : State) : Option CmdWord :=
  if offer || s.holding then s.stream[s.hpc]? else none

/-- The input port `rst_i` at the next event (R23). -/
def State.rstI (s : State) : Bool :=
  match s.nextEvent with
  | .edge rst _ => rst
  | .powerLoss => false

/-- The input ports `cmd_valid_i` and `cmd_i` at the next event: the word, or none where `cmd_valid_i = 0` (R23; log 17). -/
def State.cmdI (s : State) : Option CmdWord :=
  match s.nextEvent with
  | .edge _ offer => s.presented offer
  | .powerLoss => none

/-- The word the next edge accepts: the edge has `rst_i = 0`, `cmd_valid_i = 1` and `cmd_ready_o = 1` (R100). -/
def State.acceptedWord (s : State) : Option CmdWord :=
  if s.rstI || !s.cmdReadyO then none else s.cmdI

/-- An edge has accepted the word: the host moves to its next one and is bound to none (R18, R100). -/
def State.advance (s : State) : State := { s with hpc := s.hpc + 1, holding := false }

/-- An edge has not accepted: the host holds the word it presents, if it presents one (R100, R102). -/
def State.holdWord (offer : Bool) (s : State) : State := { s with holding := (s.presented offer).isSome }

/-- `MemRead(i, 1) = data[i]`; there is no byte at an index past the end (R29). -/
def memRead (data : List Byte) (i : Nat) : Option Byte := data[i]?

/-- The host reads the indices 0 .. n-1 once each, in increasing order (R29); none where a byte is missing (R81). -/
def readBuffer (data : List Byte) : Nat → Option (List Byte)
  | 0 => some []
  | n + 1 =>
    match readBuffer data n, memRead data n with
    | some bs, some b => some (bs ++ [b])
    | _, _ => none

/-- The bytes of a call, or none for a contract violation: an absent buffer or a length past its end (R80, R81; log 9). -/
def ChecksumCall.bytes (c : ChecksumCall) : Option (List Byte) :=
  match c.data with
  | some data => readBuffer data c.length
  | none => none

/-- The host's first pending call has become the words `ws` at the end of its stream. -/
def State.queueCommands (ws : List CmdWord) (s : State) : State :=
  { s with stream := s.stream ++ ws, calls := s.calls.tail }

/-- The host makes its next call (R64, R82), or the model refuses it (R81). -/
def takeCall (c : ChecksumCall) (s : State) : Host.Outcome State Fault Refusal :=
  match c.bytes with
  | some msg => .next (s.queueCommands (checksumWords msg))
  | none => .refused .contractViolation

end Sys2Proof.Machine
end

