-- ==== Sys2Proof/Machine/Cycle.lean ====
section
/-! DEFINITION. One rising edge of `clk_i`: the four cases of 70_reset_and_hazards.md R98 in the order of
60_exceptions.md R85. -/

namespace Sys2Proof.Machine

/-- A busy edge: one owed division step of the BYTE in progress; no command is accepted and the host holds its word
(R98, R102). -/
def busyEdge (offer : Bool) (s : State) : State :=
  ((s.writeR (divStep s.r)).writeK (s.k - 1)).holdWord offer

/-- An edge that accepts the command word `w` (R98, R100). Before the first reset the model gives it no meaning (R95). -/
def acceptEdge (w : CmdWord) (s : State) : Host.Outcome State Fault Refusal :=
  if s.resetSeen then
    match exec (decode w) s with
    | .next t => .next t.advance
    | .fault f => .fault f
    | .refused x => .refused x
  else .refused .commandBeforeReset

/-- An edge with no command: the engine does not change (R98). A host that wants to present, and whose stream is used up,
makes its next call (log 8). -/
def idleEdge (offer : Bool) (s : State) : Host.Outcome State Fault Refusal :=
  match offer, s.stream[s.hpc]?, s.calls with
  | true, none, c :: _ => takeCall c s
  | _, _, _ => .next s

/-- One rising edge: reset, else a busy step, else an accepted command, else nothing (R85, R98). -/
def clockEdge (rst offer : Bool) (s : State) : Host.Outcome State Fault Refusal :=
  if rst then .next s.resetEdge
  else if s.busy then .next (busyEdge offer s)
  else match s.presented offer with
    | some w => acceptEdge w s
    | none => idleEdge offer s

/-- One event of the outside: a rising edge, or a loss of power. -/
def runEvent (e : HostEvent) (s : State) : Host.Outcome State Fault Refusal :=
  match e with
  | .edge rst offer => clockEdge rst offer s
  | .powerLoss => .next s.losePower

/-- The plan with its next event made an edge at which the host offers a word and does not reset. -/
def offerNext : List HostEvent → List HostEvent
  | [] => []
  | _ :: rest => .edge false true :: rest

/-- The stream with `w` as word `n`; a stream that ends before `n` is filled with INIT words up to it. -/
def putWord (stream : List CmdWord) (n : Nat) (w : CmdWord) : List CmdWord :=
  stream.take n ++ List.replicate (n - stream.length) 0 ++ w :: stream.drop (n + 1)

end Sys2Proof.Machine
end

