-- ==== Sys2Proof/Machine/Step.lean ====
section
/-! DEFINITION. One step of the machine: the next event of the plan, happening to the state. -/

namespace Sys2Proof.Machine

/-- One step: one rising edge of `clk_i` (R98), or a loss of power (R93). -/
def step (s : State) : Host.Outcome State Fault Refusal :=
  runEvent s.nextEvent s.popEvent

/-- `s` with the command word `w`, taken to `nbits` bits, as the word the host presents next, and everything the very next
step needs to accept it: the word stands at `hpc`, the next event is an edge at which the host offers it, the engine is not
busy and has been reset (log 11). -/
def State.withFetchWord (s : State) (nbits w : Nat) : State :=
  { s with
    stream := putWord s.stream s.hpc (BitVec.ofNat 11 (w % 2 ^ nbits))
    plan := offerNext s.plan
    k := 0
    resetSeen := true }

end Sys2Proof.Machine
end

