-- ==== Sys2Proof/Machine/Assembler.lean ====
section
/-! DEFINITION. The assembler and the disassembler (30_encoding.md R46 to R50). A text is a list of characters (log 12). -/

namespace Sys2Proof.Machine

/-- Why the assembler refuses a line (R46). -/
inductive AsmError where
  /-- The line's first word is no mnemonic. -/
  | unknownMnemonic
  /-- FEED, BYTE or `.word` without its operand. -/
  | missingOperand
  /-- An operand on INIT, STEP, READ or DRAIN, or a second one on FEED, BYTE or `.word`. -/
  | unexpectedOperand
  /-- An operand that is no decimal number and no `0x` number. -/
  | badNumber
  /-- A byte above 255, or a word above 0x7FF. -/
  | operandOutOfRange
deriving DecidableEq, Repr

/-- A blank between the parts of a line (log 12). -/
def isBlank (c : Char) : Bool := c == ' ' || c == '\t' || c == '\r'

/-- The text without the blanks around it. -/
def trim (cs : List Char) : List Char := ((cs.dropWhile isBlank).reverse.dropWhile isBlank).reverse

/-- The parts of a text between the separators. -/
def splitAtChar (sep : Char) : List Char → List (List Char)
  | [] => [[]]
  | c :: cs =>
    if c == sep then [] :: splitAtChar sep cs
    else match splitAtChar sep cs with
      | [] => [[c]]
      | part :: parts => (c :: part) :: parts

/-- The value of a decimal or hex digit, the letters in either case (log 12). -/
def digitValue (c : Char) : Option Nat :=
  let n := c.toNat
  if 48 ≤ n && n ≤ 57 then some (n - 48)
  else if 65 ≤ n && n ≤ 70 then some (n - 55)
  else if 97 ≤ n && n ≤ 102 then some (n - 87)
  else none

/-- A run of digits in a base, after the value `acc` of the digits before it. -/
def readDigits (base acc : Nat) : List Char → Option Nat
  | [] => some acc
  | c :: cs =>
    match digitValue c with
    | some d => if d < base then readDigits base (acc * base + d) cs else none
    | none => none

/-- A number "in decimal or as `0x` followed by hex digits" (R46). -/
def readNumber : List Char → Option Nat
  | [] => none
  | '0' :: 'x' :: c :: cs => readDigits 16 0 (c :: cs)
  | c :: cs => readDigits 10 0 (c :: cs)

/-- Every part of an operand list as a number. -/
def readNumbers : List (List Char) → Except AsmError (List Nat)
  | [] => .ok []
  | part :: parts =>
    match readNumber (trim part), readNumbers parts with
    | some n, .ok ns => .ok (n :: ns)
    | none, _ => .error .badNumber
    | _, .error e => .error e

/-- The operands after a mnemonic, separated by commas (R46, R47). -/
def readOperands (rest : List Char) : Except AsmError (List Nat) :=
  match trim rest with
  | [] => .ok []
  | c :: cs => readNumbers (splitAtChar ',' (c :: cs))

/-- A statement that takes no operand. -/
def noOperand (stmt : AsmStmt) : List Nat → Except AsmError AsmStmt
  | [] => .ok stmt
  | _ :: _ => .error .unexpectedOperand

/-- A statement that takes one operand. -/
def oneOperand (stmt : Nat → AsmStmt) : List Nat → Except AsmError AsmStmt
  | [] => .error .missingOperand
  | [n] => .ok (stmt n)
  | _ :: _ :: _ => .error .unexpectedOperand

/-- The statement a mnemonic, in upper case, and its operands spell (R46 to R48). -/
def makeStmt (name : List Char) (ns : List Nat) : Except AsmError AsmStmt :=
  if name = ['I', 'N', 'I', 'T'] then noOperand .init ns
  else if name = ['F', 'E', 'E', 'D'] then oneOperand .feed ns
  else if name = ['S', 'T', 'E', 'P'] then noOperand .step ns
  else if name = ['B', 'Y', 'T', 'E'] then oneOperand .byte ns
  else if name = ['R', 'E', 'A', 'D'] then noOperand .read ns
  else if name = ['C', 'H', 'E', 'C', 'K', 'S', 'U', 'M'] then .ok (.checksum ns)
  else if name = ['D', 'R', 'A', 'I', 'N'] then noOperand .drain ns
  else if name = ['.', 'W', 'O', 'R', 'D'] then oneOperand .word ns
  else .error .unknownMnemonic

/-- One line as a statement, or none where it is blank or a comment: mnemonics are case-insensitive and `;` begins a comment
(R46). -/
def parseLine (line : List Char) : Except AsmError (Option AsmStmt) :=
  let body := trim (line.takeWhile (fun c => c != ';'))
  if body.isEmpty then .ok none
  else
    match readOperands (body.dropWhile (fun c => !isBlank c)) with
    | .error e => .error e
    | .ok ns =>
      match makeStmt ((body.takeWhile (fun c => !isBlank c)).map Char.toUpper) ns with
      | .error e => .error e
      | .ok stmt => .ok (some stmt)

/-- The command words of a statement whose operands are in range (R45, R47, R48). -/
def expandStmt : AsmStmt → List CmdWord
  | .init => [encode .init]
  | .feed b => [encode (.feed (BitVec.ofNat 8 b))]
  | .step => [encode .step]
  | .byte b => [encode (.byte (BitVec.ofNat 8 b))]
  | .read => [encode .read]
  | .checksum bs => checksumWords (bs.map (BitVec.ofNat 8))
  | .drain => drainWords
  | .word w => [BitVec.ofNat 11 w]

/-- A statement's command words; "an operand outside 0 to 255 ... is refused by the assembler" (R46). -/
def assembleStmt (stmt : AsmStmt) : Except AsmError (List CmdWord) :=
  if stmt.wellFormed then .ok (expandStmt stmt) else .error .operandOutOfRange

/-- One line's command words. -/
def assembleLine (line : List Char) : Except AsmError (List CmdWord) :=
  match parseLine line with
  | .error e => .error e
  | .ok none => .ok []
  | .ok (some stmt) => assembleStmt stmt

/-- The command stream of a list of lines, in order (R49). -/
def assembleLines : List (List Char) → Except AsmError (List CmdWord)
  | [] => .ok []
  | line :: lines =>
    match assembleLine line, assembleLines lines with
    | .ok ws, .ok rest => .ok (ws ++ rest)
    | .error e, _ => .error e
    | _, .error e => .error e

/-- The command stream of a text, one command per line (R46, R49). -/
def assemble (text : List Char) : Except AsmError (List CmdWord) := assembleLines (splitAtChar '\n' text)

/-- An upper-case hex digit. -/
def hexDigit (d : BitVec 4) : Char := Char.ofNat (if d.toNat < 10 then 48 + d.toNat else 55 + d.toNat)

/-- A byte as two upper-case hex digits (R50). -/
def hexByte (b : Byte) : List Char := [hexDigit (b.extractLsb' 4 4), hexDigit (b.extractLsb' 0 4)]

/-- A word as three upper-case hex digits (R50). -/
def hexWord (w : CmdWord) : List Char :=
  [hexDigit ((opField w).setWidth 4), hexDigit (w.extractLsb' 4 4), hexDigit (w.extractLsb' 0 4)]

/-- The one printed form of a word (R50). -/
def disassemble (w : CmdWord) : List Char :=
  match decode w with
  | .init => ['I', 'N', 'I', 'T']
  | .feed b => ['F', 'E', 'E', 'D', ' ', '0', 'x'] ++ hexByte b
  | .step => ['S', 'T', 'E', 'P']
  | .byte b => ['B', 'Y', 'T', 'E', ' ', '0', 'x'] ++ hexByte b
  | .read => ['R', 'E', 'A', 'D']
  | .reserved101 _ => ['.', 'w', 'o', 'r', 'd', ' ', '0', 'x'] ++ hexWord w
  | .reserved110 _ => ['.', 'w', 'o', 'r', 'd', ' ', '0', 'x'] ++ hexWord w
  | .reserved111 _ => ['.', 'w', 'o', 'r', 'd', ' ', '0', 'x'] ++ hexWord w

end Sys2Proof.Machine
end

