-- ==== Sys2Proof/Machine/Checksum.lean ====
section
/-! DEFINITION. The checksum function of 41_checksum.md R61 to R63, and the other forms the spec gives of it:
the 8-bit form (R70), a wider register (R69, R71), and the message as bits (R78). -/

namespace Sys2Proof.Machine

/-- The bytes of a message run through the register, in order (R63, step 2). -/
def feedMessage (msg : List Byte) (v : Reg) : Reg := msg.foldl (fun v b => consumeByte b v) v

/-- `crc8(msg)` (R63). -/
def crc8 (msg : List Byte) : Byte := highByte (feedMessage msg 0x0000)

/-- The contract `checksum(data, length)`: none where the caller breaks it (R61, R62, R81). -/
def ChecksumCall.checksum (c : ChecksumCall) : Option Byte := c.bytes.map crc8

/-- One step of the 8-bit form (R70). -/
def narrowStep (c : Byte) : Byte := if c.getLsbD 7 then (c <<< 1) ^^^ 0x07 else c <<< 1

/-- `repeat n` of the 8-bit step. -/
def narrowSteps : Nat → Byte → Byte
  | 0, c => c
  | n + 1, c => narrowSteps n (narrowStep c)

/-- One byte in the 8-bit form (R70). -/
def narrowByte (b c : Byte) : Byte := narrowSteps 8 (c ^^^ b)

/-- The division step in a register of `n` bits that is not masked to 16 (R69, R71). -/
def wideStep (n : Nat) (v : BitVec n) : BitVec n :=
  (if v.getLsbD 15 then v ^^^ Config.poly.setWidth n else v) <<< 1

/-- `repeat m` of the step in `n` bits. -/
def wideSteps (n : Nat) : Nat → BitVec n → BitVec n
  | 0, v => v
  | m + 1, v => wideSteps n m (wideStep n v)

/-- A message run through a register of `n` bits that starts at 0 (R69, R71). -/
def wideMessage (n : Nat) (msg : List Byte) : BitVec n :=
  msg.foldl (fun (v : BitVec n) (b : Byte) => wideSteps n 8 (v ^^^ (b.setWidth n <<< 8))) 0

/-- The bits of a byte, bit 7 first (R30, R78). -/
def byteBits (b : Byte) : List Bool :=
  [b.getLsbD 7, b.getLsbD 6, b.getLsbD 5, b.getLsbD 4, b.getLsbD 3, b.getLsbD 2, b.getLsbD 1, b.getLsbD 0]

/-- The bits of a message: byte 0 first, bit 7 of each byte first (R78). -/
def messageBits (msg : List Byte) : List Bool := msg.flatMap byteBits

end Sys2Proof.Machine
end

