-- ==== Sys2Proof/Machine/Platform.lean ====
section
/-! DEFINITION. A platform of several independent engines on one clock (00_scope.md R6, 20_memory.md R37,
60_exceptions.md R91; log 14). -/

namespace Sys2Proof.Machine

/-- The engine instances, each with its own R, K and FAULT and its own host; they share no state (R91). -/
structure Platform where
  engines : List State
deriving DecidableEq, Repr

/-- Every engine of a list takes one step; a refused request has no run, so it refuses the platform's edge (R81). -/
def stepEngines : List State → Host.Outcome (List State) Fault Refusal
  | [] => .next []
  | s :: rest =>
    match step s, stepEngines rest with
    | .next t, .next ts => .next (t :: ts)
    | .fault f, _ => .fault f
    | .refused x, _ => .refused x
    | _, .fault f => .fault f
    | _, .refused x => .refused x

/-- One edge of the clock the engines share (R91). -/
def Platform.step (p : Platform) : Host.Outcome Platform Fault Refusal :=
  match stepEngines p.engines with
  | .next es => .next ⟨es⟩
  | .fault f => .fault f
  | .refused x => .refused x

/-- A platform of `nEngines` engines right after reset; `N_ENGINES` is the platform's parameter (R6, D20). Engine `i` takes its
free draws from source `i`, so that what two engines hold after a loss of power is neither equal nor different by any proof
(R91, R95; DESIGN CHOICE, log 14, log 16). -/
def Platform.reset (nEngines : Nat) : Platform :=
  ⟨(List.range nEngines).map (fun i => { State.reset with drawSource := i })⟩

/-- The platform before the first reset after power-on: each engine's R, K and FAULT are its own free draws (R26, R91, R95;
log 14, log 16), and each host presents nothing, as in `State.powerOn` (DESIGN CHOICE, log 10). -/
def Platform.powerOn (nEngines : Nat) : Platform := ⟨(Platform.reset nEngines).engines.map State.losePower⟩

end Sys2Proof.Machine
end

