-- ==== Sys2Proof/Machine/Transaction.lean ====
section
/-! DEFINITION. The transaction-level machine: each command is one atomic state change (40_commands.md R51). -/

namespace Sys2Proof.Machine

/-- The transaction-level state `(R, FAULT, OUT)` (R51). -/
structure Transaction where
  r : Reg
  fault : Bool
  out : List Byte
deriving DecidableEq, Repr

/-- What the transaction level sees of the machine; K is 0 between transactions (R51). -/
def State.transaction (s : State) : Transaction := ⟨s.r, s.fault, s.out⟩

/-- One command, whole (R51 to R53, R55 to R58). -/
def Transaction.exec (t : Transaction) (i : Instr) : Transaction :=
  match i with
  | .init => { t with r := 0x0000 }
  | .feed b => { t with r := loadByte b t.r }
  | .step => { t with r := divStep t.r }
  | .byte b => { t with r := consumeByte b t.r }
  | .read => { t with out := t.out ++ [highByte t.r] }
  | .reserved101 _ => { t with fault := true }
  | .reserved110 _ => { t with fault := true }
  | .reserved111 _ => { t with fault := true }

/-- Commands run one at a time, in the order they are accepted (R51, R35). -/
def Transaction.run (words : List CmdWord) (t : Transaction) : Transaction :=
  words.foldl (fun t w => t.exec (decode w)) t

end Sys2Proof.Machine
end

