-- ==== Sys2Proof/Safety.lean ====
section
/-! DEFINITION. The terms claims are made in: a failed run, the end of a run, a host that does not reset, the words accepted
between two states, and the invariant. -/

namespace Sys2Proof.Machine

/-- `n` steps of the machine, stopping at a refusal. -/
def run (n : Nat) (s : State) : Host.Outcome State Fault Refusal := Sys2Proof.core.run n s

/-- "A run whose state has FAULT = 1 is a failed run" (60_exceptions.md R83). -/
def State.failedRun (s : State) : Bool := s.fault

/-- "The run ends when every command of the stream has been accepted and K = 0" (41_checksum.md R64). -/
def State.runEnded (s : State) : Bool := s.hpc == s.stream.length && s.k == 0

/-- An event that is neither a reset edge nor a loss of power. -/
def HostEvent.isQuiet : HostEvent → Bool
  | .edge rst _ => !rst
  | .powerLoss => false

/-- No reset and no loss of power lies ahead; the host may still pause as it likes. -/
def State.quietPlan (s : State) : Bool := s.plan.all HostEvent.isQuiet

/-- The words accepted between an earlier state `s` and a later state `t` of a run (10_state.md R18). -/
def State.acceptedSince (s t : State) : List CmdWord := (t.stream.drop s.hpc).take (t.hpc - s.hpc)

/-- The next edge applies STEP once: a busy edge, or one that accepts STEP or BYTE (R98, R106). -/
def State.divides (s : State) : Bool :=
  match s.nextEvent, s.acceptedWord with
  | .edge false _, some w => opField w == 2 || opField w == 3
  | .edge false _, none => s.busy
  | _, _ => false

/-- The invariant: after a reset R[7:0] = 0x00 (10_state.md R17), the host's index stays within its stream (R18), and a host
that holds a word has one (R100). -/
def State.Inv (s : State) : Prop :=
  (s.resetSeen = true → lowByte s.r = 0) ∧ s.hpc ≤ s.stream.length ∧ (s.holding = true → s.hpc < s.stream.length)

/-- The next state of an outcome, if it is one. -/
def nextState? (o : Host.Outcome State Fault Refusal) : Option State :=
  match o with
  | .next s => some s
  | .fault _ => none
  | .refused _ => none

/-- The refusal of an outcome, if it is one. -/
def refusal? (o : Host.Outcome State Fault Refusal) : Option Refusal :=
  match o with
  | .next _ => none
  | .fault _ => none
  | .refused x => some x

end Sys2Proof.Machine
end

