-- ==== Sys2Proof/Certificates/Slice0/Obligations.lean ====
section
/-! DEFINITION. The statements for the provers. Each docstring names the rule of spec/ it formalises. -/

open Sys2Proof Sys2Proof.Machine

/-! ### Reset and power -/

/-- 10_state.md R26 for the first reset after power-on, and the state `reset` itself (log 3, log 10). -/
def Obligations.FirstResetGivesResetState : Prop :=
  (State.reset.r = 0x0000 ∧ State.reset.k = 0 ∧ State.reset.fault = false ∧ State.reset.out = [] ∧ State.reset.hpc = 0) ∧
  ∀ offer : Bool, ∃ t, step { State.powerOn with plan := [.edge true offer] } = .next t ∧
    t.r = 0x0000 ∧ t.k = 0 ∧ t.fault = false ∧ t.out = [] ∧ t.hpc = 0 ∧ t.resetSeen = true

/-- The reset edge of 70_reset_and_hazards.md R94. That hpc is unchanged, also at a later reset where 10_state.md R26's table
says 0, is the model's reading (log 3); so is that the discarded word stays at hpc while the host is no longer bound to it
(log 5). -/
def Obligations.ResetEdgeClearsEngineOnly : Prop :=
  ∀ s : State, s.rstI = true → ∃ t, step s = .next t ∧
    t.r = 0x0000 ∧ t.k = 0 ∧ t.fault = false ∧ t.cmdReadyO = true ∧
    t.out = s.out ∧ t.hpc = s.hpc ∧ t.holding = false ∧ t.stream = s.stream ∧ t.calls = s.calls ∧ t.plan = s.plan.tail

/-- 70_reset_and_hazards.md R95. -/
def Obligations.CommandBeforeResetRefused : Prop :=
  (State.powerOn.r = Config.powerOnR 0 0 ∧ State.powerOn.k = Config.powerOnK 0 0 ∧ State.powerOn.fault = Config.powerOnFault 0 0 ∧
    State.powerOn.resetSeen = false ∧ (State.powerOn.cmdReadyO = true ↔ Config.powerOnK 0 0 = 0) ∧
    State.powerOn.pecO = (Config.powerOnR 0 0).extractLsb' 8 8) ∧
  (∀ (s : State) (w : CmdWord), s.resetSeen = false → s.acceptedWord = some w → step s = .refused .commandBeforeReset) ∧
  (∀ s : State, s.rstI = true → ∃ t, step s = .next t ∧ t.resetSeen = true)

/-- 60_exceptions.md R93 and U9 of 93_implementation_defined.md, for every engine's draw source and every draw. That a stopped
clock is the same event and that the host's fields stay is the model's choice (log 7); the form of the draws is log 16. -/
def Obligations.PowerLossDrawsEngineAfresh : Prop :=
  ∀ s : State, s.nextEvent = .powerLoss → step s = .next { s with
    r := Config.powerOnR s.drawSource s.draws, k := Config.powerOnK s.drawSource s.draws
    fault := Config.powerOnFault s.drawSource s.draws
    resetSeen := false, draws := s.draws + 1, plan := s.plan.tail }

/-! ### The commands -/

/-- 40_commands.md R52. -/
def Obligations.InitClearsWorkingRegister : Prop :=
  ∀ (d : Byte) (s : State), decode (0x000#11 ||| d.setWidth 11) = .init ∧ exec .init s = .next { s with r := 0x0000 }

/-- 40_commands.md R53. -/
def Obligations.FeedXorsByteIntoHighByte : Prop :=
  ∀ (b : Byte) (s : State), decode (0x100#11 ||| b.setWidth 11) = .feed b ∧
    ∃ t, exec (.feed b) s = .next t ∧ t = { s with r := s.r ^^^ (b.setWidth 16 <<< 8) } ∧
      highByte t.r = highByte s.r ^^^ b ∧ lowByte t.r = lowByte s.r ∧ exec (.feed b) t = .next s

/-- 40_commands.md R54 and R55. -/
def Obligations.StepDividesOnce : Prop :=
  ∀ (d : Byte) (s : State), decode (0x200#11 ||| d.setWidth 11) = .step ∧
    exec .step s = .next { s with r := (if s.r.getLsbD 15 then s.r ^^^ 0x8380 else s.r) <<< 1 }

/-- The BYTE arm of 70_reset_and_hazards.md R98: the accepting edge. -/
def Obligations.ByteAcceptingEdge : Prop :=
  ∀ (b : Byte) (s : State), exec (.byte b) s = .next { s with r := divStep (s.r ^^^ (b.setWidth 16 <<< 8)), k := 7 }

/-- 40_commands.md R56, run on the cycle-level machine. -/
def Obligations.ByteRunsEightDivisionSteps : Prop :=
  ∀ (b : Byte) (s : State), s.resetSeen = true → s.quietPlan = true → s.acceptedWord = some (0x300#11 ||| b.setWidth 11) →
    decode (0x300#11 ||| b.setWidth 11) = .byte b ∧
    (∃ t, run 8 s = .next t ∧ t.r = divSteps 8 (s.r ^^^ (b.setWidth 16 <<< 8)) ∧ t.k = 0 ∧
      t.fault = s.fault ∧ t.out = s.out ∧ t.hpc = s.hpc + 1 ∧ t.stream = s.stream) ∧
    ∀ j, 1 ≤ j → j ≤ 7 → ∃ u, run j s = .next u ∧ u.k.toNat = 8 - j ∧ u.busy = true

/-- 40_commands.md R57. -/
def Obligations.ReadAppendsHighByte : Prop :=
  ∀ (d : Byte) (s : State), decode (0x400#11 ||| d.setWidth 11) = .read ∧
    (∃ t, exec .read s = .next t ∧ t = { s with out := s.out ++ [s.r.extractLsb' 8 8] } ∧
      exec .read t = .next { s with out := s.out ++ [s.r.extractLsb' 8 8, s.r.extractLsb' 8 8] }) ∧
    (s.r = 0x0000 → exec .read s = .next { s with out := s.out ++ [0x00] })

/-- 40_commands.md R58. -/
def Obligations.ReservedCommandsSetFaultOnly : Prop :=
  (∀ (low : Byte) (s : State), exec (.reserved101 low) s = .next { s with fault := true } ∧
    exec (.reserved110 low) s = .next { s with fault := true } ∧ exec (.reserved111 low) s = .next { s with fault := true }) ∧
  (∀ (w : CmdWord) (s : State), 0x500 ≤ w.toNat → exec (decode w) s = .next { s with fault := true }) ∧
  (∀ s : State, s.busy = true → s.acceptedWord = none)

/-- 10_state.md R15: FAULT's whole life; a loss of power draws it afresh. -/
def Obligations.FaultSetByIllegalClearedByReset : Prop :=
  (∀ s t : State, step s = .next t → s.rstI = true → t.fault = false) ∧
  (∀ s t : State, step s = .next t → s.rstI = false → s.nextEvent ≠ .powerLoss →
    (t.fault = true ↔ s.fault = true ∨ ∃ w, s.acceptedWord = some w ∧ 0x500 ≤ w.toNat)) ∧
  ∀ s : State, s.faultO = s.fault

/-- 60_exceptions.md R83. -/
def Obligations.IllegalCommandIsStickyAndHarmless : Prop :=
  (∀ (s : State) (w : CmdWord), s.resetSeen = true → s.acceptedWord = some w → 0x500 ≤ w.toNat →
    ∃ t, step s = .next t ∧ t.faultO = true ∧ t.r = s.r ∧ t.k = s.k ∧ t.out = s.out ∧ t.cmdReadyO = true) ∧
  (∀ (n : Nat) (s t : State), s.quietPlan = true → s.faultO = true → run n s = .next t →
    t.faultO = true ∧ t.failedRun = true ∧ t.recordedFault = some .illegalCommand) ∧
  (∀ (i : Instr) (s t : State), exec i s = .next t → exec i { s with fault := true } = .next { t with fault := true }) ∧
  (∀ s : State, s.rstI = true → ∃ t, step s = .next t ∧ t.faultO = false)

/-- 40_commands.md R59 and 30_encoding.md R48, on the cycle-level machine: BYTE takes 8 edges, FEED and DRAIN take 9. -/
def Obligations.ByteEqualsFeedThenDrain : Prop :=
  drainWords = List.replicate 8 0x200#11 ∧
  ∀ (b : Byte) (s : State), s.resetSeen = true → s.k = 0 → s.plan = [] →
    ∃ t u, run 8 { s with stream := [encode (.byte b)], hpc := 0 } = .next t ∧
      run 9 { s with stream := encode (.feed b) :: drainWords, hpc := 0 } = .next u ∧
      t.runEnded = true ∧ u.runEnded = true ∧ t.r = u.r ∧ t.fault = u.fault ∧ t.out = u.out

/-- 40_commands.md R60 and 30_encoding.md R42. -/
def Obligations.DataFieldIgnored : Prop :=
  ∀ (w1 w2 : CmdWord) (s : State), opField w1 = opField w2 → opField w1 ≠ 1 → opField w1 ≠ 3 →
    exec (decode w1) s = exec (decode w2) s

/-- 60_exceptions.md R79. -/
def Obligations.LegalCommandsNeverFault : Prop :=
  ∀ (i : Instr) (s : State), i.isReserved = false → ∃ t, exec i s = .next t ∧ t.fault = s.fault ∧ t.recordedFault = s.recordedFault

/-- The writers of R, K, FAULT and OUT that 10_state.md R13, R14, R15 and R19 list, over all commands, and the frame. -/
def Obligations.CommandsWriteOnlyTheirElements : Prop :=
  ∀ (i : Instr) (s t : State), exec i s = .next t →
    (t.stream = s.stream ∧ t.hpc = s.hpc ∧ t.holding = s.holding ∧ t.calls = s.calls ∧ t.plan = s.plan ∧
      t.resetSeen = s.resetSeen ∧ t.draws = s.draws ∧ t.drawSource = s.drawSource) ∧
    (t.r ≠ s.r → i = .init ∨ i = .step ∨ ∃ b, i = .feed b ∨ i = .byte b) ∧
    (t.k ≠ s.k → t.k = 7 ∧ ∃ b, i = .byte b) ∧
    (t.fault ≠ s.fault → t.fault = true ∧ i.isReserved = true) ∧
    (t.out ≠ s.out → i = .read)

/-! ### Encoding -/

/-- 30_encoding.md R45: the decoder, its inverse, and where re-encoding gives back the word. -/
def Obligations.DecodeEncodeRoundTrip : Prop :=
  (∀ w : CmdWord,
    (opField w = 0b000 → decode w = .init) ∧ (opField w = 0b001 → decode w = .feed (dataField w)) ∧
    (opField w = 0b010 → decode w = .step) ∧ (opField w = 0b011 → decode w = .byte (dataField w)) ∧
    (opField w = 0b100 → decode w = .read) ∧ (opField w = 0b101 → decode w = .reserved101 (dataField w)) ∧
    (opField w = 0b110 → decode w = .reserved110 (dataField w)) ∧ (opField w = 0b111 → decode w = .reserved111 (dataField w))) ∧
  (encode .init = 0x000 ∧ encode .step = 0x200 ∧ encode .read = 0x400 ∧
    ∀ b : Byte, encode (.feed b) = 0x100#11 ||| b.setWidth 11 ∧ encode (.byte b) = 0x300#11 ||| b.setWidth 11) ∧
  (∀ i : Instr, decode (encode i) = i) ∧
  (∀ w : CmdWord, encode (decode w) = w ↔ (opField w = 0 ∨ opField w = 2 ∨ opField w = 4 → dataField w = 0))

/-- 30_encoding.md R41: exactly one row of the table selects a word, and it is the decoded command's. -/
def Obligations.OneTableRowSelectsEachWord : Prop :=
  ∀ w : CmdWord, ∃ row ∈ opcodeTable, row.selects w = true ∧ row.op = (decode w).op ∧
    ∀ other ∈ opcodeTable, other.selects w = true → other = row

/-- Words written out from R41's encodings, as spec/95_test_vectors.md lists their decodings. -/
def Obligations.WrittenWordsDecode : Prop :=
  decode 0b00000000000 = .init ∧ decode 0b00011111111 = .init ∧ decode 0b00110110100 = .feed 0xB4 ∧
  decode 0b01000000000 = .step ∧ decode 0b01010100101 = .step ∧ decode 0b01111111111 = .byte 0xFF ∧
  decode 0b10000000000 = .read ∧ decode 0b10011111111 = .read ∧ decode 0b10100000000 = .reserved101 0x00 ∧
  decode 0b11010101010 = .reserved110 0xAA ∧ decode 0b11111111111 = .reserved111 0xFF

/-- 30_encoding.md R49's range of a command word; the rejection's name is the model's (log 13). -/
def Obligations.OnlyElevenBitWordsDecode : Prop :=
  ∀ n : Nat, (n ≤ 0x7FF → decodeNat n = .ok (decode (BitVec.ofNat 11 n))) ∧ (0x7FF < n → decodeNat n = .error .widerThanCommand)

/-- 30_encoding.md R43: the illegal words, and READ as the only command that changes no engine state. -/
def Obligations.IllegalWordsAndTheNoOp : Prop :=
  (∀ w : CmdWord, (decode w).isReserved = true ↔ 0x500 ≤ w.toNat) ∧
  (∀ (w : CmdWord) (s : State), 0x500 ≤ w.toNat → exec (decode w) s = .next s.raiseIllegalCommand) ∧
  (∀ s : State, ∃ t, exec .read s = .next t ∧ t.r = s.r ∧ t.k = s.k ∧ t.fault = s.fault) ∧
  (∀ op : BitVec 3, op ≠ 0b100 → ∃ (w : CmdWord) (s t : State), opField w = op ∧ exec (decode w) s = .next t ∧
    (t.r ≠ s.r ∨ t.k ≠ s.k ∨ t.fault ≠ s.fault))

/-- 30_encoding.md R50. -/
def Obligations.PrintedFormAssemblesBack : Prop :=
  (∀ w : CmdWord,
    (opField w = 0 → disassemble w = ['I', 'N', 'I', 'T']) ∧ (opField w = 2 → disassemble w = ['S', 'T', 'E', 'P']) ∧
    (opField w = 4 → disassemble w = ['R', 'E', 'A', 'D']) ∧
    (opField w = 1 → disassemble w = ['F', 'E', 'E', 'D', ' ', '0', 'x'] ++ hexByte (dataField w)) ∧
    (opField w = 3 → disassemble w = ['B', 'Y', 'T', 'E', ' ', '0', 'x'] ++ hexByte (dataField w)) ∧
    (5 ≤ (opField w).toNat → disassemble w = ['.', 'w', 'o', 'r', 'd', ' ', '0', 'x'] ++ hexWord w)) ∧
  (∀ d : BitVec 4, ['0', '1', '2', '3', '4', '5', '6', '7', '8', '9', 'A', 'B', 'C', 'D', 'E', 'F'][d.toNat]? = some (hexDigit d)) ∧
  (∀ w : CmdWord, assembleLine (disassemble w) = .ok [encode (decode w)] ∧
    (assembleLine (disassemble w) = .ok [w] ↔ (opField w = 0 ∨ opField w = 2 ∨ opField w = 4 → dataField w = 0)))

/-- 30_encoding.md R47, and R46's refusal of an operand outside 0 to 255. -/
def Obligations.ChecksumPseudoInstruction : Prop :=
  ∀ bs : List Nat,
    ((∀ b ∈ bs, b ≤ 255) → ∃ ws, assembleStmt (.checksum bs) = .ok ws ∧
      ws = 0x000#11 :: (bs.map (fun b => 0x300#11 ||| BitVec.ofNat 11 b) ++ [0x400#11]) ∧ ws.length = bs.length + 2) ∧
    ((∃ b ∈ bs, 255 < b) → assembleStmt (.checksum bs) = .error .operandOutOfRange)

/-! ### The cycle-level machine -/

/-- 70_reset_and_hazards.md R98, case by case. -/
def Obligations.EdgeFollowsCycleMachine : Prop :=
  ∀ (s : State) (rst offer : Bool), s.resetSeen = true → s.nextEvent = .edge rst offer →
    (rst = true → ∃ t, step s = .next t ∧ t.r = 0x0000 ∧ t.k = 0 ∧ t.fault = false ∧ t.out = s.out) ∧
    (rst = false → s.k ≠ 0 → ∃ t, step s = .next t ∧ t.r = divStep s.r ∧ t.k.toNat + 1 = s.k.toNat ∧
      t.fault = s.fault ∧ t.out = s.out) ∧
    (rst = false → s.k = 0 → ∀ w, s.cmdI = some w → ∃ t, step s = .next t ∧
      (opField w = 0b000 → t.r = 0x0000 ∧ t.k = 0 ∧ t.fault = s.fault ∧ t.out = s.out) ∧
      (opField w = 0b001 → t.r = s.r ^^^ ((dataField w).setWidth 16 <<< 8) ∧ t.k = 0 ∧ t.fault = s.fault ∧ t.out = s.out) ∧
      (opField w = 0b010 → t.r = divStep s.r ∧ t.k = 0 ∧ t.fault = s.fault ∧ t.out = s.out) ∧
      (opField w = 0b011 → t.r = divStep (s.r ^^^ ((dataField w).setWidth 16 <<< 8)) ∧ t.k = 7 ∧ t.fault = s.fault ∧ t.out = s.out) ∧
      (opField w = 0b100 → t.r = s.r ∧ t.k = 0 ∧ t.fault = s.fault ∧ t.out = s.out ++ [s.r.extractLsb' 8 8]) ∧
      (5 ≤ (opField w).toNat → t.r = s.r ∧ t.k = 0 ∧ t.fault = true ∧ t.out = s.out)) ∧
    (rst = false → s.k = 0 → s.cmdI = none →
      (∀ t, step s = .next t → t.r = s.r ∧ t.k = 0 ∧ t.fault = s.fault ∧ t.out = s.out) ∧
      (s.calls = [] → ∃ t, step s = .next t))

/-- A step runs the decoded command: `exec`, then the host moves to its next word (70_reset_and_hazards.md R100). -/
def Obligations.StepRunsDecodedCommand : Prop :=
  ∀ (s : State) (w : CmdWord), s.resetSeen = true → s.acceptedWord = some w →
    ∃ t, exec (decode w) { s with plan := s.plan.tail } = .next t ∧ step s = .next { t with hpc := s.hpc + 1, holding := false }

/-- The host's index and its words (10_state.md R18, 30_encoding.md R49). That hpc is unchanged at a later reset is the model's
reading of R18 against R26's table (log 3), and at a loss of power the model's choice (log 7). -/
def Obligations.StreamIndexCountsAcceptedCommands : Prop :=
  State.reset.hpc = 0 ∧
  (∀ s t : State, step s = .next t → t.hpc = s.hpc + (if s.acceptedWord.isSome then 1 else 0)) ∧
  (∀ (s : State) (w : CmdWord), s.cmdI = some w → s.stream[s.hpc]? = some w)

/-- 70_reset_and_hazards.md R100. -/
def Obligations.HandshakeAcceptsAndHolds : Prop :=
  (∀ (s : State) (w : CmdWord), s.acceptedWord = some w ↔ s.rstI = false ∧ s.cmdI = some w ∧ s.cmdReadyO = true) ∧
  (∀ (s : State) (rst : Bool) (rest : List HostEvent), s.k ≠ 0 ∨ rst = true →
    ∃ t u, step { s with plan := .edge rst true :: rest } = .next t ∧ step { s with plan := .edge rst false :: rest } = .next u ∧
      t.r = u.r ∧ t.k = u.k ∧ t.fault = u.fault ∧ t.out = u.out ∧ t.hpc = u.hpc) ∧
  (∀ (s t : State) (w : CmdWord), step s = .next t → s.rstI = false → s.cmdI = some w → s.acceptedWord = none →
    t.nextEvent ≠ .powerLoss → t.cmdI = some w) ∧
  (∀ s t : State, step s = .next t → (t.hpc = s.hpc + 1 ↔ s.acceptedWord.isSome = true))

/-- The hold of 70_reset_and_hazards.md R102 is always lifted, and no command is accepted meanwhile. -/
def Obligations.BusyPeriodAlwaysEnds : Prop :=
  ∀ s : State, s.quietPlan = true →
    (∃ t, run s.k.toNat s = .next t ∧ t.cmdReadyO = true ∧ t.r = divSteps s.k.toNat s.r ∧
      t.fault = s.fault ∧ t.out = s.out ∧ t.hpc = s.hpc ∧ t.stream = s.stream) ∧
    ∀ j, j < s.k.toNat → ∃ u, run j s = .next u ∧ u.cmdReadyO = false ∧ u.acceptedWord = none

/-- 70_reset_and_hazards.md R99. -/
def Obligations.OutputPortsReadStateOnly : Prop :=
  (∀ s : State, (s.cmdReadyO = true ↔ s.k = 0) ∧ (∀ i, i < 8 → s.pecO.getLsbD i = s.r.getLsbD (8 + i)) ∧ s.faultO = s.fault) ∧
  (∀ s u : State, s.r = u.r → s.k = u.k → s.fault = u.fault →
    s.cmdReadyO = u.cmdReadyO ∧ s.pecO = u.pecO ∧ s.faultO = u.faultO)

/-- 70_reset_and_hazards.md R101, for every way the host may pause. -/
def Obligations.CycleMachineRefinesTransactions : Prop :=
  ∀ (n : Nat) (s t : State), s.quietPlan = true → s.k = 0 → run n s = .next t → t.k = 0 →
    s.hpc + (s.acceptedSince t).length = t.hpc ∧ t.transaction = Transaction.run (s.acceptedSince t) s.transaction

/-- 70_reset_and_hazards.md R107: cycles, busy edges and STEP applications of each command. -/
def Obligations.CyclesPerCommand : Prop :=
  ∀ (s : State) (w : CmdWord), s.resetSeen = true → s.quietPlan = true → s.acceptedWord = some w →
    (∃ t, run (if opField w = 3 then 8 else 1) s = .next t ∧ t.cmdReadyO = true ∧ t.hpc = s.hpc + 1 ∧
      t.r = divSteps (if opField w = 3 then 8 else if opField w = 2 then 1 else 0)
        (if opField w = 0 then 0 else if opField w = 1 ∨ opField w = 3 then loadByte (dataField w) s.r else s.r)) ∧
    ∀ j, 1 ≤ j → j < (if opField w = 3 then 8 else 1) → ∃ u, run j s = .next u ∧ u.cmdReadyO = false

/-- OUT gains a byte at a READ and at nothing else (10_state.md R19). That a later reset does not empty it is the model's reading
of 70_reset_and_hazards.md R94 against R26's table (log 3), and that a loss of power does not, the model's choice (log 7). -/
def Obligations.OutputTraceRecordsReads : Prop :=
  State.reset.out = [] ∧
  ∀ s t : State, step s = .next t →
    t.out = s.out ++ (if s.acceptedWord.map opField = some 0b100 then [s.r.extractLsb' 8 8] else [])

/-- The invariant of 10_state.md R17 and R18 is kept by every step, from every state that has it. -/
def Obligations.StepKeepsInvariant : Prop :=
  ∀ s t : State, s.Inv → step s = .next t → t.Inv

/-- The invariant holds right after reset, whatever the host is about to do. -/
def Obligations.ResetHasInvariant : Prop :=
  ∀ (stream : List CmdWord) (calls : List ChecksumCall) (plan : List HostEvent),
    { State.reset with stream := stream, calls := calls, plan := plan }.Inv

/-- A run whose end has FAULT = 0 began with FAULT = 0 and accepted no reserved word (60_exceptions.md R83). -/
def Obligations.CleanRunAcceptedNoReservedWord : Prop :=
  ∀ (n : Nat) (s t : State), s.quietPlan = true → run n s = .next t → t.failedRun = false →
    s.failedRun = false ∧ ∀ w ∈ s.acceptedSince t, (decode w).isReserved = false

/-- 60_exceptions.md R93: with `rst_i` low and nothing left to present, the engine holds its state at every edge. -/
def Obligations.EndedRunHoldsItsState : Prop :=
  ∀ (n : Nat) (s : State), s.quietPlan = true → s.runEnded = true → s.calls = [] →
    ∃ t, run n s = .next t ∧ t.runEnded = true ∧ t.transaction = s.transaction

/-! ### The checksum -/

/-- 41_checksum.md R64: the CHECKSUM stream of a buffer computes `crc8`, however the host paces it. -/
def Obligations.ChecksumStreamComputesCrc8 : Prop :=
  ∀ (s : State) (data : List Byte) (length : Nat), length ≤ data.length → s.resetSeen = true → s.k = 0 → s.fault = false →
    s.quietPlan = true → s.calls = [] → s.stream.drop s.hpc = checksumWords (data.take length) →
    (∃ n t, run n s = .next t ∧ t.runEnded = true) ∧
    ∀ n t, run n s = .next t → t.runEnded = true →
      t.out = s.out ++ [crc8 (data.take length)] ∧ t.r = joinBytes (crc8 (data.take length)) 0x00 ∧ t.k = 0 ∧ t.fault = false

/-- 70_reset_and_hazards.md R108 and R106: 8n + 2 cycles, when each word is accepted, and 8n STEPs. -/
def Obligations.ChecksumTakesEightCyclesPerByte : Prop :=
  (∀ (s : State) (msg : List Byte), s.resetSeen = true → s.k = 0 → s.plan = [] → s.stream.drop s.hpc = checksumWords msg →
    s.acceptedWord = some 0x000 ∧
    (∀ (i : Nat) (h : i < msg.length), ∃ u, run (1 + 8 * i) s = .next u ∧
      u.acceptedWord = some (0x300#11 ||| msg[i].setWidth 11)) ∧
    (∃ u, run (1 + 8 * msg.length) s = .next u ∧ u.acceptedWord = some 0x400) ∧
    (∃ t, run (8 * msg.length + 2) s = .next t ∧ t.runEnded = true) ∧
    (List.range (8 * msg.length + 2)).countP
      (fun j => ((nextState? (run j s)).map State.divides).getD false) = 8 * msg.length) ∧
  (∀ (s : State) (b : Byte), s.resetSeen = true → s.k = 0 → s.plan = [] → s.stream.drop s.hpc = encode (.feed b) :: drainWords →
    ∃ t, run 9 s = .next t ∧ t.runEnded = true)

/-- A contract violation (60_exceptions.md R81): the request is refused, it has no value, and no step makes commands of it. The
list of pending calls is the model's choice (log 8), and so is that a loss of power leaves the host's fields (log 7). -/
def Obligations.ContractViolationRefused : Prop :=
  ∀ c : ChecksumCall, (c.data = none ∧ 0 < c.length) ∨ (∃ data, c.data = some data ∧ data.length < c.length) →
    c.checksum = none ∧ (∀ s : State, takeCall c s = .refused .contractViolation) ∧
    ∀ s t : State, s.calls.head? = some c → step s = .next t → t.stream = s.stream ∧ t.calls = s.calls

/-- The host's next call, at the edge at which it makes it: a call within its buffer becomes the CHECKSUM stream of
`data[0 .. length-1]`, any other is refused (20_memory.md R28, R29; 41_checksum.md R62; 60_exceptions.md R80, R82). That this
happens at an idle edge is the model's choice (log 8), and so is the refusal of an absent buffer of length 0 (log 9). -/
def Obligations.CallBecomesChecksumStream : Prop :=
  ∀ (s : State) (c : ChecksumCall) (rest : List ChecksumCall), s.nextEvent = .edge false true → s.k = 0 →
    s.stream[s.hpc]? = none → s.calls = c :: rest →
    (∀ data, c.data = some data → c.length ≤ data.length →
      c.checksum = some (crc8 (data.take c.length)) ∧
      step s = .next { s with stream := s.stream ++ checksumWords (data.take c.length), calls := rest, plan := s.plan.tail }) ∧
    ((c.data = none ∨ ∃ data, c.data = some data ∧ data.length < c.length) → step s = .refused .contractViolation)

/-- 41_checksum.md R65: INIT makes a call independent of what came before; without INIT the residue is continued. -/
def Obligations.InitRestoresIndependence : Prop :=
  ∀ (s : State) (a b c : List Byte) (n : Nat) (t : State), s.resetSeen = true → s.k = 0 → s.quietPlan = true → s.calls = [] →
    s.stream.drop s.hpc = checksumWords a ++ (b.map (fun x => encode (.byte x)) ++ [encode .read]) ++ checksumWords c →
    run n s = .next t → t.runEnded = true → t.out = s.out ++ [crc8 a, crc8 (a ++ b), crc8 c]

/-- 41_checksum.md R67. -/
def Obligations.DivisionStepIsShiftThenXor : Prop :=
  ∀ v : Reg, divStep v = (v <<< 1) ^^^ (if v.getLsbD 15 then 0x0700 else 0x0000)

/-- 41_checksum.md R68: the shift doubles the value, so no 1 leaves bit 15. -/
def Obligations.DivisionStepLosesNoBit : Prop :=
  ∀ v : Reg, (if v.getLsbD 15 then v ^^^ 0x8380 else v).getLsbD 15 = false ∧
    (divStep v).toNat = 2 * (if v.getLsbD 15 then v ^^^ 0x8380 else v).toNat

/-- 41_checksum.md R69 and R71: a wider, unmasked register holds the same value. -/
def Obligations.WiderRegisterHoldsSameValue : Prop :=
  ∀ (n : Nat) (msg : List Byte), 16 ≤ n →
    wideMessage n msg = (feedMessage msg 0).setWidth n ∧ (wideMessage n msg).extractLsb' 8 8 = crc8 msg

/-- 41_checksum.md R70. -/
def Obligations.EightBitForm : Prop :=
  ∀ b c : Byte, consumeByte b (joinBytes c 0x00) = joinBytes (highByte (divSteps 8 (joinBytes (c ^^^ b) 0x00))) 0x00 ∧
    consumeByte b (joinBytes c 0x00) = joinBytes (narrowByte b c) 0x00

/-- 41_checksum.md R72, on the transaction-level machine. -/
def Obligations.ReadEmitsPrefixChecksum : Prop :=
  ∀ (a b : List Byte) (t : Transaction),
    (Transaction.run (encode .init :: a.map (fun x => encode (.byte x))) t).r = joinBytes (crc8 a) 0x00 ∧
    (Transaction.run (encode .init :: (a.map (fun x => encode (.byte x)) ++ [encode .read])) t).out = t.out ++ [crc8 a] ∧
    (t.r = joinBytes (crc8 a) 0x00 → (Transaction.run (b.map (fun x => encode (.byte x))) t).r = joinBytes (crc8 (a ++ b)) 0x00)

/-- 41_checksum.md R73. -/
def Obligations.ChecksumIsLinear : Prop :=
  (∀ a b : List Byte, a.length = b.length → crc8 (List.zipWith (fun x y => x ^^^ y) a b) = crc8 a ^^^ crc8 b) ∧
  ∀ n : Nat, crc8 (List.replicate n 0) = 0x00

/-- 41_checksum.md R74. -/
def Obligations.CheckByteGivesZero : Prop :=
  ∀ msg : List Byte, crc8 (msg ++ [crc8 msg]) = 0x00

/-- 41_checksum.md R75. -/
def Obligations.SingleBitFlipChangesChecksum : Prop :=
  ∀ (msg : List Byte) (i j : Nat) (h : i < msg.length), j < 8 →
    crc8 (msg.set i (msg[i] ^^^ (1#8 <<< j))) ≠ crc8 msg ∧
    crc8 (msg.set i (msg[i] ^^^ (1#8 <<< j))) ^^^ crc8 msg = crc8 ((List.replicate msg.length 0x00#8).set i (1#8 <<< j))

/-- 41_checksum.md R76. -/
def Obligations.EmptyAndSingleByteChecksums : Prop :=
  crc8 [] = 0x00 ∧ (∀ b : Byte, crc8 [b] = highByte (divSteps 8 (0x0000 ^^^ (b.setWidth 16 <<< 8)))) ∧ crc8 [0x00] = 0x00

/-- The two end-to-end scenarios of the source (41_checksum.md R77, spec/95_test_vectors.md V1). -/
def Obligations.SourceScenarios : Prop :=
  crc8 [0xB4, 0x07, 0xB5, 0xD2, 0x3A] = 0x30 ∧ crc8 [0xB4, 0x22, 0x07, 0xC8] = 0x48

/-- 41_checksum.md R78: the checksum is the remainder of M(x)·x^8 by x^8 + x^2 + x + 1 over GF(2). -/
def Obligations.ChecksumIsPolynomialRemainder : Prop :=
  let toPoly : List Bool → Polynomial (ZMod 2) := fun bits =>
    bits.foldl (fun p bit => p * Polynomial.X + (if bit then 1 else 0)) 0
  ∀ msg : List Byte, toPoly (byteBits (crc8 msg)) =
    (toPoly (messageBits msg) * Polynomial.X ^ 8) %ₘ (Polynomial.X ^ 8 + Polynomial.X ^ 2 + Polynomial.X + 1)

/-! ### The platform -/

/-- An engine of a platform steps as it would alone (60_exceptions.md R91, 20_memory.md R37). That all engines step together on
one clock, each with its own host and plan, and that one refusal refuses the platform's edge, is the model's choice (log 14). -/
def Obligations.PlatformEnginesAreIndependent : Prop :=
  (∀ n : Nat, (Platform.reset n).engines.length = n) ∧
  (∀ p q : Platform, p.step = .next q → q.engines.length = p.engines.length ∧
    ∀ (i : Nat) (h : i < p.engines.length), ∃ t, q.engines[i]? = some t ∧ step p.engines[i] = .next t) ∧
  (∀ p : Platform, (∀ s ∈ p.engines, ∃ t, step s = .next t) → ∃ q, p.step = .next q)
end

