-- ==== Sys2Proof/Laws/State.lean ====
section
/-! SUPPORT. Each state update, field by field, so that no proof unfolds a record update. -/

namespace Sys2Proof.Machine

@[simp] theorem State.writeR_r (v : Reg) (s : State) : (s.writeR v).r = v := rfl
@[simp] theorem State.writeR_k (v : Reg) (s : State) : (s.writeR v).k = s.k := rfl
@[simp] theorem State.writeR_fault (v : Reg) (s : State) : (s.writeR v).fault = s.fault := rfl
@[simp] theorem State.writeR_out (v : Reg) (s : State) : (s.writeR v).out = s.out := rfl
@[simp] theorem State.writeR_stream (v : Reg) (s : State) : (s.writeR v).stream = s.stream := rfl
@[simp] theorem State.writeR_hpc (v : Reg) (s : State) : (s.writeR v).hpc = s.hpc := rfl
@[simp] theorem State.writeR_holding (v : Reg) (s : State) : (s.writeR v).holding = s.holding := rfl
@[simp] theorem State.writeR_calls (v : Reg) (s : State) : (s.writeR v).calls = s.calls := rfl
@[simp] theorem State.writeR_plan (v : Reg) (s : State) : (s.writeR v).plan = s.plan := rfl
@[simp] theorem State.writeR_resetSeen (v : Reg) (s : State) : (s.writeR v).resetSeen = s.resetSeen := rfl
@[simp] theorem State.writeR_draws (v : Reg) (s : State) : (s.writeR v).draws = s.draws := rfl
@[simp] theorem State.writeR_drawSource (v : Reg) (s : State) : (s.writeR v).drawSource = s.drawSource := rfl

@[simp] theorem State.writeK_r (v : Counter) (s : State) : (s.writeK v).r = s.r := rfl
@[simp] theorem State.writeK_k (v : Counter) (s : State) : (s.writeK v).k = v := rfl
@[simp] theorem State.writeK_fault (v : Counter) (s : State) : (s.writeK v).fault = s.fault := rfl
@[simp] theorem State.writeK_out (v : Counter) (s : State) : (s.writeK v).out = s.out := rfl
@[simp] theorem State.writeK_stream (v : Counter) (s : State) : (s.writeK v).stream = s.stream := rfl
@[simp] theorem State.writeK_hpc (v : Counter) (s : State) : (s.writeK v).hpc = s.hpc := rfl
@[simp] theorem State.writeK_holding (v : Counter) (s : State) : (s.writeK v).holding = s.holding := rfl
@[simp] theorem State.writeK_calls (v : Counter) (s : State) : (s.writeK v).calls = s.calls := rfl
@[simp] theorem State.writeK_plan (v : Counter) (s : State) : (s.writeK v).plan = s.plan := rfl
@[simp] theorem State.writeK_resetSeen (v : Counter) (s : State) : (s.writeK v).resetSeen = s.resetSeen := rfl
@[simp] theorem State.writeK_draws (v : Counter) (s : State) : (s.writeK v).draws = s.draws := rfl
@[simp] theorem State.writeK_drawSource (v : Counter) (s : State) : (s.writeK v).drawSource = s.drawSource := rfl

@[simp] theorem State.emit_r (v : Byte) (s : State) : (s.emit v).r = s.r := rfl
@[simp] theorem State.emit_k (v : Byte) (s : State) : (s.emit v).k = s.k := rfl
@[simp] theorem State.emit_fault (v : Byte) (s : State) : (s.emit v).fault = s.fault := rfl
@[simp] theorem State.emit_out (v : Byte) (s : State) : (s.emit v).out = s.out ++ [v] := rfl
@[simp] theorem State.emit_stream (v : Byte) (s : State) : (s.emit v).stream = s.stream := rfl
@[simp] theorem State.emit_hpc (v : Byte) (s : State) : (s.emit v).hpc = s.hpc := rfl
@[simp] theorem State.emit_holding (v : Byte) (s : State) : (s.emit v).holding = s.holding := rfl
@[simp] theorem State.emit_calls (v : Byte) (s : State) : (s.emit v).calls = s.calls := rfl
@[simp] theorem State.emit_plan (v : Byte) (s : State) : (s.emit v).plan = s.plan := rfl
@[simp] theorem State.emit_resetSeen (v : Byte) (s : State) : (s.emit v).resetSeen = s.resetSeen := rfl
@[simp] theorem State.emit_draws (v : Byte) (s : State) : (s.emit v).draws = s.draws := rfl
@[simp] theorem State.emit_drawSource (v : Byte) (s : State) : (s.emit v).drawSource = s.drawSource := rfl

@[simp] theorem State.raiseIllegalCommand_r (s : State) : (s.raiseIllegalCommand).r = s.r := rfl
@[simp] theorem State.raiseIllegalCommand_k (s : State) : (s.raiseIllegalCommand).k = s.k := rfl
@[simp] theorem State.raiseIllegalCommand_fault (s : State) : (s.raiseIllegalCommand).fault = true := rfl
@[simp] theorem State.raiseIllegalCommand_out (s : State) : (s.raiseIllegalCommand).out = s.out := rfl
@[simp] theorem State.raiseIllegalCommand_stream (s : State) : (s.raiseIllegalCommand).stream = s.stream := rfl
@[simp] theorem State.raiseIllegalCommand_hpc (s : State) : (s.raiseIllegalCommand).hpc = s.hpc := rfl
@[simp] theorem State.raiseIllegalCommand_holding (s : State) : (s.raiseIllegalCommand).holding = s.holding := rfl
@[simp] theorem State.raiseIllegalCommand_calls (s : State) : (s.raiseIllegalCommand).calls = s.calls := rfl
@[simp] theorem State.raiseIllegalCommand_plan (s : State) : (s.raiseIllegalCommand).plan = s.plan := rfl
@[simp] theorem State.raiseIllegalCommand_resetSeen (s : State) : (s.raiseIllegalCommand).resetSeen = s.resetSeen := rfl
@[simp] theorem State.raiseIllegalCommand_draws (s : State) : (s.raiseIllegalCommand).draws = s.draws := rfl
@[simp] theorem State.raiseIllegalCommand_drawSource (s : State) : (s.raiseIllegalCommand).drawSource = s.drawSource := rfl

@[simp] theorem State.resetEdge_r (s : State) : (s.resetEdge).r = Config.resetR := rfl
@[simp] theorem State.resetEdge_k (s : State) : (s.resetEdge).k = Config.resetK := rfl
@[simp] theorem State.resetEdge_fault (s : State) : (s.resetEdge).fault = Config.resetFault := rfl
@[simp] theorem State.resetEdge_out (s : State) : (s.resetEdge).out = s.out := rfl
@[simp] theorem State.resetEdge_stream (s : State) : (s.resetEdge).stream = s.stream := rfl
@[simp] theorem State.resetEdge_hpc (s : State) : (s.resetEdge).hpc = s.hpc := rfl
@[simp] theorem State.resetEdge_holding (s : State) : (s.resetEdge).holding = false := rfl
@[simp] theorem State.resetEdge_calls (s : State) : (s.resetEdge).calls = s.calls := rfl
@[simp] theorem State.resetEdge_plan (s : State) : (s.resetEdge).plan = s.plan := rfl
@[simp] theorem State.resetEdge_resetSeen (s : State) : (s.resetEdge).resetSeen = true := rfl
@[simp] theorem State.resetEdge_draws (s : State) : (s.resetEdge).draws = s.draws := rfl
@[simp] theorem State.resetEdge_drawSource (s : State) : (s.resetEdge).drawSource = s.drawSource := rfl

@[simp] theorem State.losePower_r (s : State) : (s.losePower).r = Config.powerOnR s.drawSource s.draws := rfl
@[simp] theorem State.losePower_k (s : State) : (s.losePower).k = Config.powerOnK s.drawSource s.draws := rfl
@[simp] theorem State.losePower_fault (s : State) : (s.losePower).fault = Config.powerOnFault s.drawSource s.draws := rfl
@[simp] theorem State.losePower_out (s : State) : (s.losePower).out = s.out := rfl
@[simp] theorem State.losePower_stream (s : State) : (s.losePower).stream = s.stream := rfl
@[simp] theorem State.losePower_hpc (s : State) : (s.losePower).hpc = s.hpc := rfl
@[simp] theorem State.losePower_holding (s : State) : (s.losePower).holding = s.holding := rfl
@[simp] theorem State.losePower_calls (s : State) : (s.losePower).calls = s.calls := rfl
@[simp] theorem State.losePower_plan (s : State) : (s.losePower).plan = s.plan := rfl
@[simp] theorem State.losePower_resetSeen (s : State) : (s.losePower).resetSeen = false := rfl
@[simp] theorem State.losePower_draws (s : State) : (s.losePower).draws = s.draws + 1 := rfl
@[simp] theorem State.losePower_drawSource (s : State) : (s.losePower).drawSource = s.drawSource := rfl

@[simp] theorem State.popEvent_r (s : State) : (s.popEvent).r = s.r := rfl
@[simp] theorem State.popEvent_k (s : State) : (s.popEvent).k = s.k := rfl
@[simp] theorem State.popEvent_fault (s : State) : (s.popEvent).fault = s.fault := rfl
@[simp] theorem State.popEvent_out (s : State) : (s.popEvent).out = s.out := rfl
@[simp] theorem State.popEvent_stream (s : State) : (s.popEvent).stream = s.stream := rfl
@[simp] theorem State.popEvent_hpc (s : State) : (s.popEvent).hpc = s.hpc := rfl
@[simp] theorem State.popEvent_holding (s : State) : (s.popEvent).holding = s.holding := rfl
@[simp] theorem State.popEvent_calls (s : State) : (s.popEvent).calls = s.calls := rfl
@[simp] theorem State.popEvent_plan (s : State) : (s.popEvent).plan = s.plan.tail := rfl
@[simp] theorem State.popEvent_resetSeen (s : State) : (s.popEvent).resetSeen = s.resetSeen := rfl
@[simp] theorem State.popEvent_draws (s : State) : (s.popEvent).draws = s.draws := rfl
@[simp] theorem State.popEvent_drawSource (s : State) : (s.popEvent).drawSource = s.drawSource := rfl

@[simp] theorem State.advance_r (s : State) : (s.advance).r = s.r := rfl
@[simp] theorem State.advance_k (s : State) : (s.advance).k = s.k := rfl
@[simp] theorem State.advance_fault (s : State) : (s.advance).fault = s.fault := rfl
@[simp] theorem State.advance_out (s : State) : (s.advance).out = s.out := rfl
@[simp] theorem State.advance_stream (s : State) : (s.advance).stream = s.stream := rfl
@[simp] theorem State.advance_hpc (s : State) : (s.advance).hpc = s.hpc + 1 := rfl
@[simp] theorem State.advance_holding (s : State) : (s.advance).holding = false := rfl
@[simp] theorem State.advance_calls (s : State) : (s.advance).calls = s.calls := rfl
@[simp] theorem State.advance_plan (s : State) : (s.advance).plan = s.plan := rfl
@[simp] theorem State.advance_resetSeen (s : State) : (s.advance).resetSeen = s.resetSeen := rfl
@[simp] theorem State.advance_draws (s : State) : (s.advance).draws = s.draws := rfl
@[simp] theorem State.advance_drawSource (s : State) : (s.advance).drawSource = s.drawSource := rfl

@[simp] theorem State.holdWord_r (offer : Bool) (s : State) : (s.holdWord offer).r = s.r := rfl
@[simp] theorem State.holdWord_k (offer : Bool) (s : State) : (s.holdWord offer).k = s.k := rfl
@[simp] theorem State.holdWord_fault (offer : Bool) (s : State) : (s.holdWord offer).fault = s.fault := rfl
@[simp] theorem State.holdWord_out (offer : Bool) (s : State) : (s.holdWord offer).out = s.out := rfl
@[simp] theorem State.holdWord_stream (offer : Bool) (s : State) : (s.holdWord offer).stream = s.stream := rfl
@[simp] theorem State.holdWord_hpc (offer : Bool) (s : State) : (s.holdWord offer).hpc = s.hpc := rfl
@[simp] theorem State.holdWord_holding (offer : Bool) (s : State) : (s.holdWord offer).holding = (s.presented offer).isSome := rfl
@[simp] theorem State.holdWord_calls (offer : Bool) (s : State) : (s.holdWord offer).calls = s.calls := rfl
@[simp] theorem State.holdWord_plan (offer : Bool) (s : State) : (s.holdWord offer).plan = s.plan := rfl
@[simp] theorem State.holdWord_resetSeen (offer : Bool) (s : State) : (s.holdWord offer).resetSeen = s.resetSeen := rfl
@[simp] theorem State.holdWord_draws (offer : Bool) (s : State) : (s.holdWord offer).draws = s.draws := rfl
@[simp] theorem State.holdWord_drawSource (offer : Bool) (s : State) : (s.holdWord offer).drawSource = s.drawSource := rfl

@[simp] theorem State.queueCommands_r (ws : List CmdWord) (s : State) : (s.queueCommands ws).r = s.r := rfl
@[simp] theorem State.queueCommands_k (ws : List CmdWord) (s : State) : (s.queueCommands ws).k = s.k := rfl
@[simp] theorem State.queueCommands_fault (ws : List CmdWord) (s : State) : (s.queueCommands ws).fault = s.fault := rfl
@[simp] theorem State.queueCommands_out (ws : List CmdWord) (s : State) : (s.queueCommands ws).out = s.out := rfl
@[simp] theorem State.queueCommands_stream (ws : List CmdWord) (s : State) : (s.queueCommands ws).stream = s.stream ++ ws := rfl
@[simp] theorem State.queueCommands_hpc (ws : List CmdWord) (s : State) : (s.queueCommands ws).hpc = s.hpc := rfl
@[simp] theorem State.queueCommands_holding (ws : List CmdWord) (s : State) : (s.queueCommands ws).holding = s.holding := rfl
@[simp] theorem State.queueCommands_calls (ws : List CmdWord) (s : State) : (s.queueCommands ws).calls = s.calls.tail := rfl
@[simp] theorem State.queueCommands_plan (ws : List CmdWord) (s : State) : (s.queueCommands ws).plan = s.plan := rfl
@[simp] theorem State.queueCommands_resetSeen (ws : List CmdWord) (s : State) : (s.queueCommands ws).resetSeen = s.resetSeen := rfl
@[simp] theorem State.queueCommands_draws (ws : List CmdWord) (s : State) : (s.queueCommands ws).draws = s.draws := rfl
@[simp] theorem State.queueCommands_drawSource (ws : List CmdWord) (s : State) : (s.queueCommands ws).drawSource = s.drawSource := rfl

end Sys2Proof.Machine
end

