-- ==== Sys2Proof/Laws/Host.lean ====
section
/-! SUPPORT. What the host's operations can do, said once. -/

namespace Sys2Proof.Machine

@[simp] theorem State.nextEvent_nil {s : State} (h : s.plan = []) : s.nextEvent = .edge false true := by
  simp [State.nextEvent, h]

@[simp] theorem State.nextEvent_cons {s : State} {e : HostEvent} {es : List HostEvent} (h : s.plan = e :: es) :
    s.nextEvent = e := by
  simp [State.nextEvent, h]

theorem State.rstI_edge {s : State} {rst offer : Bool} (h : s.nextEvent = .edge rst offer) : s.rstI = rst := by
  simp [State.rstI, h]

theorem State.cmdI_edge {s : State} {rst offer : Bool} (h : s.nextEvent = .edge rst offer) :
    s.cmdI = s.presented offer := by
  simp [State.cmdI, h]

theorem State.cmdI_powerLoss {s : State} (h : s.nextEvent = .powerLoss) : s.cmdI = none := by
  simp [State.cmdI, h]

/-- A presented word is the stream's word at the host's index, and the host offers it or holds it. -/
theorem State.presented_eq_some {offer : Bool} {s : State} {w : CmdWord} :
    s.presented offer = some w ↔ (offer = true ∨ s.holding = true) ∧ s.stream[s.hpc]? = some w := by
  cases offer <;> cases h : s.holding <;> simp [State.presented, h]

/-- What a host presents depends on its stream, its index and whether it holds, on nothing else. -/
theorem State.presented_congr (offer : Bool) {s t : State} (h1 : t.stream = s.stream) (h2 : t.hpc = s.hpc)
    (h3 : t.holding = s.holding) : t.presented offer = s.presented offer := by
  simp [State.presented, h1, h2, h3]

@[simp] theorem State.popEvent_presented (offer : Bool) (s : State) :
    s.popEvent.presented offer = s.presented offer := rfl

@[simp] theorem State.popEvent_busy (s : State) : s.popEvent.busy = s.busy := rfl

theorem State.lt_length_of_presented {offer : Bool} {s : State} {w : CmdWord} (h : s.presented offer = some w) :
    s.hpc < s.stream.length :=
  (List.getElem?_eq_some_iff.mp (State.presented_eq_some.mp h).2).1

@[simp] theorem State.cmdReadyO_iff (s : State) : s.cmdReadyO = true ↔ s.k = 0 := by
  simp [State.cmdReadyO]

@[simp] theorem State.busy_iff (s : State) : s.busy = true ↔ s.k ≠ 0 := by
  simp [State.busy]

theorem State.busy_eq_not_cmdReadyO (s : State) : s.busy = !s.cmdReadyO := rfl


/-- Reading `n` bytes of a buffer in order gives its first `n` bytes, if it has so many. -/
theorem readBuffer_eq_take {data : List Byte} {n : Nat} (h : n ≤ data.length) : readBuffer data n = some (data.take n) := by
  induction n with
  | zero => simp [readBuffer]
  | succ n ih =>
    have hn : n < data.length := h
    simp [readBuffer, memRead, ih (Nat.le_of_lt hn), List.getElem?_eq_getElem hn]

/-- A buffer that is too short gives nothing: no byte is made up, and the length is not cut. -/
theorem readBuffer_eq_none {data : List Byte} {n : Nat} (h : data.length < n) : readBuffer data n = none := by
  induction n with
  | zero => omega
  | succ n ih =>
    rcases Nat.lt_or_ge data.length n with hlt | hge
    · simp [readBuffer, ih hlt]
    · have : data[n]? = none := List.getElem?_eq_none (by omega)
      cases hb : readBuffer data n <;> simp [readBuffer, memRead, hb, this]

/-- Taking a call queues the CHECKSUM words of its bytes, or refuses a contract violation; nothing else. -/
theorem takeCall_cases (c : ChecksumCall) (s : State) :
    (∃ msg, c.bytes = some msg ∧ takeCall c s = .next (s.queueCommands (checksumWords msg))) ∨
    (c.bytes = none ∧ takeCall c s = .refused .contractViolation) := by
  cases h : c.bytes <;> simp [takeCall, h]

end Sys2Proof.Machine
end

