-- ==== Sys2Proof/Laws/Cycle.lean ====
section
/-! SUPPORT. What each command and each step can do, said once: proofs about `step` cite `step_cases` and the lemmas of the
branches, and do not unfold it. -/

namespace Sys2Proof.Machine

@[simp] theorem exec_init (s : State) : exec .init s = .next (s.writeR 0) := rfl
@[simp] theorem exec_feed (b : Byte) (s : State) : exec (.feed b) s = .next (s.writeR (loadByte b s.r)) := rfl
@[simp] theorem exec_step (s : State) : exec .step s = .next (s.writeR (divStep s.r)) := rfl
@[simp] theorem exec_byte (b : Byte) (s : State) :
    exec (.byte b) s = .next ((s.writeR (divStep (loadByte b s.r))).writeK 7) := rfl
@[simp] theorem exec_read (s : State) : exec .read s = .next (s.emit s.pecO) := rfl
@[simp] theorem exec_reserved101 (low : Byte) (s : State) : exec (.reserved101 low) s = .next s.raiseIllegalCommand := rfl
@[simp] theorem exec_reserved110 (low : Byte) (s : State) : exec (.reserved110 low) s = .next s.raiseIllegalCommand := rfl
@[simp] theorem exec_reserved111 (low : Byte) (s : State) : exec (.reserved111 low) s = .next s.raiseIllegalCommand := rfl

theorem step_edge {s : State} {rst offer : Bool} (h : s.nextEvent = .edge rst offer) :
    step s = clockEdge rst offer s.popEvent := by
  simp [step, h, runEvent]

theorem step_powerLoss {s : State} (h : s.nextEvent = .powerLoss) : step s = .next s.popEvent.losePower := by
  simp [step, h, runEvent]

theorem clockEdge_reset (offer : Bool) (s : State) : clockEdge true offer s = .next s.resetEdge := rfl

theorem clockEdge_busy {s : State} (offer : Bool) (h : s.k ≠ 0) : clockEdge false offer s = .next (busyEdge offer s) := by
  have hb : s.busy = true := (State.busy_iff s).mpr h
  simp [clockEdge, hb]

theorem clockEdge_accept {s : State} {offer : Bool} {w : CmdWord} (h : s.k = 0) (hw : s.presented offer = some w) :
    clockEdge false offer s = acceptEdge w s := by
  simp [clockEdge, State.busy, h, hw]

theorem clockEdge_idle {s : State} {offer : Bool} (h : s.k = 0) (hw : s.presented offer = none) :
    clockEdge false offer s = idleEdge offer s := by
  simp [clockEdge, State.busy, h, hw]

/-- An accepted command's effect is `exec`'s, and the host advances. -/
theorem acceptEdge_next {w : CmdWord} {s t : State} (h : acceptEdge w s = .next t) :
    s.resetSeen = true ∧ ∃ u, exec (decode w) s = .next u ∧ t = u.advance := by
  cases hr : s.resetSeen
  · simp [acceptEdge, hr] at h
  · cases he : exec (decode w) s <;> simp [acceptEdge, hr, he] at h
    exact ⟨rfl, _, rfl, h.symm⟩

/-- An idle edge changes nothing, or turns the host's next call into commands. -/
theorem idleEdge_next {offer : Bool} {s t : State} (h : idleEdge offer s = .next t) :
    t = s ∨ ∃ c rest msg, offer = true ∧ s.stream[s.hpc]? = none ∧ s.calls = c :: rest ∧ c.bytes = some msg ∧
      t = s.queueCommands (checksumWords msg) := by
  unfold idleEdge at h
  split at h
  · rename_i c rest hn hc
    rcases takeCall_cases c s with ⟨msg, hb, ht⟩ | ⟨_, ht⟩
    · rw [ht] at h
      exact .inr ⟨c, rest, msg, rfl, hn, hc, hb, (Host.Outcome.next.inj h).symm⟩
    · rw [ht] at h
      exact absurd h (by simp)
  · exact .inl (Host.Outcome.next.inj h).symm

/-- Everything one step can do when it answers a next state. -/
theorem step_cases {s t : State} (h : step s = .next t) :
    (s.nextEvent = .powerLoss ∧ t = s.popEvent.losePower) ∨
    (∃ offer, s.nextEvent = .edge true offer ∧ t = s.popEvent.resetEdge) ∨
    (∃ offer, s.nextEvent = .edge false offer ∧ s.k ≠ 0 ∧ t = busyEdge offer s.popEvent) ∨
    (∃ offer w u, s.nextEvent = .edge false offer ∧ s.k = 0 ∧ s.presented offer = some w ∧ s.resetSeen = true ∧
      exec (decode w) s.popEvent = .next u ∧ t = u.advance) ∨
    (∃ offer, s.nextEvent = .edge false offer ∧ s.k = 0 ∧ s.presented offer = none ∧
      (t = s.popEvent ∨ ∃ c rest msg, offer = true ∧ s.stream[s.hpc]? = none ∧ s.calls = c :: rest ∧ c.bytes = some msg ∧
        t = s.popEvent.queueCommands (checksumWords msg))) := by
  cases he : s.nextEvent with
  | powerLoss =>
    rw [step_powerLoss he] at h
    exact .inl ⟨rfl, (Host.Outcome.next.inj h).symm⟩
  | edge rst offer =>
    rw [step_edge he] at h
    cases rst with
    | true => exact .inr (.inl ⟨offer, rfl, (Host.Outcome.next.inj h).symm⟩)
    | false =>
      by_cases hk : s.k = 0
      · cases hw : s.presented offer with
        | some w =>
          rw [clockEdge_accept (s := s.popEvent) hk hw] at h
          obtain ⟨hr, u, hu, ht⟩ := acceptEdge_next h
          exact .inr (.inr (.inr (.inl ⟨offer, w, u, rfl, hk, hw, hr, hu, ht⟩)))
        | none =>
          rw [clockEdge_idle (s := s.popEvent) hk hw] at h
          exact .inr (.inr (.inr (.inr ⟨offer, rfl, hk, hw, idleEdge_next h⟩)))
      · rw [clockEdge_busy (s := s.popEvent) offer hk] at h
        exact .inr (.inr (.inl ⟨offer, rfl, hk, (Host.Outcome.next.inj h).symm⟩))

end Sys2Proof.Machine
end

