-- ==== Sys2Proof/Laws/Datapath.lean ====
section
/-! SUPPORT. The datapath: how the division step, the load and a whole byte act on bits, and that they are linear. -/

namespace Sys2Proof.Machine

theorem divStep_of_topBit {v : Reg} (h : v.getLsbD 15 = true) : divStep v = (v ^^^ Config.poly) <<< 1 := by
  rw [divStep, topBit, if_pos h]

theorem divStep_of_not_topBit {v : Reg} (h : v.getLsbD 15 = false) : divStep v = v <<< 1 := by
  rw [divStep, topBit, h, if_neg Bool.false_ne_true]

@[simp] theorem divStep_zero : divStep 0 = 0 := by decide

theorem divSteps_zero_left (v : Reg) : divSteps 0 v = v := rfl

theorem divSteps_succ (n : Nat) (v : Reg) : divSteps (n + 1) v = divSteps n (divStep v) := rfl

theorem divSteps_add (m n : Nat) (v : Reg) : divSteps (m + n) v = divSteps n (divSteps m v) := by
  induction m generalizing v with
  | zero => simp [divSteps]
  | succ m ih => rw [Nat.succ_add, divSteps_succ, divSteps_succ, ih]

@[simp] theorem divSteps_zero (n : Nat) : divSteps n 0 = 0 := by
  induction n with
  | zero => rfl
  | succ n ih => rw [divSteps_succ, divStep_zero, ih]

/-- The division step is linear over GF(2). -/
theorem divStep_xor (u v : Reg) : divStep (u ^^^ v) = divStep u ^^^ divStep v := by
  cases hu : u.getLsbD 15 <;> cases hv : v.getLsbD 15
  · rw [divStep_of_not_topBit hu, divStep_of_not_topBit hv,
      divStep_of_not_topBit (by rw [BitVec.getLsbD_xor, hu, hv]; rfl), BitVec.shiftLeft_xor_distrib]
  · rw [divStep_of_not_topBit hu, divStep_of_topBit hv, divStep_of_topBit (by rw [BitVec.getLsbD_xor, hu, hv]; rfl),
      ← BitVec.shiftLeft_xor_distrib, BitVec.xor_assoc]
  · rw [divStep_of_topBit hu, divStep_of_not_topBit hv, divStep_of_topBit (by rw [BitVec.getLsbD_xor, hu, hv]; rfl),
      ← BitVec.shiftLeft_xor_distrib, BitVec.xor_assoc, BitVec.xor_assoc, BitVec.xor_comm v]
  · rw [divStep_of_topBit hu, divStep_of_topBit hv, divStep_of_not_topBit (by rw [BitVec.getLsbD_xor, hu, hv]; rfl),
      ← BitVec.shiftLeft_xor_distrib, BitVec.xor_assoc, ← BitVec.xor_assoc Config.poly, BitVec.xor_comm Config.poly v,
      BitVec.xor_assoc v, BitVec.xor_self, BitVec.xor_zero]

theorem divSteps_xor (n : Nat) (u v : Reg) : divSteps n (u ^^^ v) = divSteps n u ^^^ divSteps n v := by
  induction n generalizing u v with
  | zero => rfl
  | succ n ih => rw [divSteps_succ, divStep_xor, ih, ← divSteps_succ, ← divSteps_succ]

theorem widen_xor (a b : Byte) : widen (a ^^^ b) = widen a ^^^ widen b := by
  simp [widen, BitVec.setWidth_xor, BitVec.shiftLeft_xor_distrib]

theorem consumeByte_xor (a b : Byte) (u v : Reg) :
    consumeByte (a ^^^ b) (u ^^^ v) = consumeByte a u ^^^ consumeByte b v := by
  rw [consumeByte, consumeByte, consumeByte, ← divSteps_xor]
  congr 1
  simp only [loadByte, widen_xor]
  ac_rfl

/-- The bits of a register made of two bytes. -/
theorem getLsbD_joinBytes (hi lo : Byte) (i : Nat) :
    (joinBytes hi lo).getLsbD i = if i < 8 then lo.getLsbD i else hi.getLsbD (i - 8) :=
  BitVec.getLsbD_append (x := hi) (y := lo)

theorem getLsbD_highByte (v : Reg) {i : Nat} (h : i < 8) : (highByte v).getLsbD i = v.getLsbD (8 + i) := by
  rw [highByte, BitVec.getLsbD_extractLsb']
  simp [h]

theorem getLsbD_lowByte (v : Reg) {i : Nat} (h : i < 8) : (lowByte v).getLsbD i = v.getLsbD i := by
  rw [lowByte, BitVec.getLsbD_extractLsb']
  simp [h]

/-- A register is its two bytes. -/
theorem joinBytes_highByte_lowByte (v : Reg) : joinBytes (highByte v) (lowByte v) = v := by
  apply BitVec.eq_of_getLsbD_eq
  intro i hi
  rw [getLsbD_joinBytes]
  split
  · exact getLsbD_lowByte v ‹_›
  · rw [getLsbD_highByte v (by omega)]
    congr 1
    omega

@[simp] theorem highByte_joinBytes (hi lo : Byte) : highByte (joinBytes hi lo) = hi := by
  apply BitVec.eq_of_getLsbD_eq
  intro i h
  rw [getLsbD_highByte _ h, getLsbD_joinBytes, if_neg (by omega)]
  congr 1
  omega

@[simp] theorem lowByte_joinBytes (hi lo : Byte) : lowByte (joinBytes hi lo) = lo := by
  apply BitVec.eq_of_getLsbD_eq
  intro i h
  rw [getLsbD_lowByte _ h, getLsbD_joinBytes, if_pos h]

theorem joinBytes_xor (a b c d : Byte) : joinBytes a b ^^^ joinBytes c d = joinBytes (a ^^^ c) (b ^^^ d) := by
  apply BitVec.eq_of_getLsbD_eq
  intro i _
  rw [BitVec.getLsbD_xor, getLsbD_joinBytes, getLsbD_joinBytes, getLsbD_joinBytes]
  split <;> rw [BitVec.getLsbD_xor]

theorem widen_eq_joinBytes (b : Byte) : widen b = joinBytes b 0 := by
  apply BitVec.eq_of_getLsbD_eq
  intro i hi
  rw [widen, BitVec.getLsbD_shiftLeft, BitVec.getLsbD_setWidth, getLsbD_joinBytes]
  by_cases h : i < 8
  · simp [h]
  · rw [if_neg h, decide_eq_true hi, decide_eq_false h, decide_eq_true (by omega : i - 8 < 16)]
    simp

/-- A register whose low byte is 0 is `{c, 0x00}` for its high byte c. -/
theorem eq_joinBytes_of_lowByte {v : Reg} (h : lowByte v = 0) : v = joinBytes (highByte v) 0 := by
  have := joinBytes_highByte_lowByte v
  rw [h] at this
  exact this.symm

theorem joinBytes_shiftLeft_one {c : Byte} : joinBytes c 0 <<< 1 = joinBytes (c <<< 1) 0 := by
  apply BitVec.eq_of_getLsbD_eq
  intro i hi
  rw [BitVec.getLsbD_shiftLeft, getLsbD_joinBytes, getLsbD_joinBytes, BitVec.getLsbD_shiftLeft]
  by_cases h8 : i < 8
  · rw [if_pos h8, if_pos (by omega : i - 1 < 8)]
    simp
  · by_cases h9 : i = 8
    · subst h9
      simp
    · have e : i - 1 - 8 = i - 8 - 1 := by omega
      rw [if_neg h8, if_neg (by omega : ¬ i - 1 < 8), e, decide_eq_true hi, decide_eq_true (by omega : i - 8 < 8),
        decide_eq_false (by omega : ¬ i < 1), decide_eq_false (by omega : ¬ i - 8 < 1)]

theorem topBit_joinBytes (c d : Byte) : topBit (joinBytes c d) = c.getLsbD 7 := by
  rw [topBit, getLsbD_joinBytes, if_neg (by omega)]

/-- On `{c, 0x00}` the division step is the 8-bit step, and the low byte stays 0 (10_state.md R17, 41_checksum.md R70). -/
theorem divStep_joinBytes (c : Byte) : divStep (joinBytes c 0) = joinBytes (narrowStep c) 0 := by
  rw [divStep, topBit_joinBytes, narrowStep]
  split
  · have hp : Config.poly <<< 1 = joinBytes 0x07 0 := by decide
    rw [BitVec.shiftLeft_xor_distrib, hp, joinBytes_shiftLeft_one, joinBytes_xor, BitVec.xor_self]
    rfl
  · exact joinBytes_shiftLeft_one

theorem divSteps_joinBytes (n : Nat) (c : Byte) : divSteps n (joinBytes c 0) = joinBytes (narrowSteps n c) 0 := by
  induction n generalizing c with
  | zero => rfl
  | succ n ih => rw [divSteps_succ, divStep_joinBytes, ih]; rfl

theorem loadByte_joinBytes (b c d : Byte) : loadByte b (joinBytes c d) = joinBytes (c ^^^ b) d := by
  rw [loadByte, widen_eq_joinBytes, joinBytes_xor]
  exact congrArg _ BitVec.xor_zero

theorem lowByte_divStep {v : Reg} (h : lowByte v = 0) : lowByte (divStep v) = 0 := by
  rw [eq_joinBytes_of_lowByte h, divStep_joinBytes, lowByte_joinBytes]

theorem lowByte_loadByte (b : Byte) (v : Reg) : lowByte (loadByte b v) = lowByte v := by
  rw [← joinBytes_highByte_lowByte v, loadByte_joinBytes, lowByte_joinBytes, lowByte_joinBytes]

theorem feedMessage_append (a b : List Byte) (v : Reg) : feedMessage (a ++ b) v = feedMessage b (feedMessage a v) :=
  List.foldl_append

end Sys2Proof.Machine
end

