-- ==== Sys2Proof/Laws/Decode.lean ====
section
/-! SUPPORT. A command word is its op and its data byte: the decoder and the encoder on words of that shape. -/

namespace Sys2Proof

/-- The bits of a word made of an op and a data byte. -/
theorem getLsbD_opData (op : BitVec 3) (d : Byte) (i : Nat) :
    (op ++ d : CmdWord).getLsbD i = if i < 8 then d.getLsbD i else op.getLsbD (i - 8) :=
  BitVec.getLsbD_append (x := op) (y := d)

theorem opField_append (op : BitVec 3) (d : Byte) : opField (op ++ d) = op := by
  apply BitVec.eq_of_getLsbD_eq
  intro i hi
  rw [opField, BitVec.getLsbD_extractLsb', decide_eq_true hi, Bool.true_and, getLsbD_opData, if_neg (by omega),
    Nat.add_sub_cancel_left]

theorem dataField_append (op : BitVec 3) (d : Byte) : dataField (op ++ d) = d := by
  apply BitVec.eq_of_getLsbD_eq
  intro i hi
  rw [dataField, BitVec.getLsbD_extractLsb', decide_eq_true hi, Bool.true_and, getLsbD_opData, if_pos (by omega),
    Nat.zero_add]

/-- Every word is its op followed by its data byte. -/
theorem opField_append_dataField (w : CmdWord) : (opField w ++ dataField w : CmdWord) = w := by
  apply BitVec.eq_of_getLsbD_eq
  intro i hi
  rw [getLsbD_opData, opField, dataField, BitVec.getLsbD_extractLsb', BitVec.getLsbD_extractLsb']
  by_cases h : i < 8
  · simp [h]
  · have h3 : i - 8 < 3 := by omega
    have hs : 8 + (i - 8) = i := by omega
    simp [h, h3, hs]

/-- The cases of an op field. -/
theorem op_cases (op : BitVec 3) : op = 0 ∨ op = 1 ∨ op = 2 ∨ op = 3 ∨ op = 4 ∨ op = 5 ∨ op = 6 ∨ op = 7 := by
  revert op
  decide

/-- The decoder on a word given by its fields. -/
theorem decode_append (op : BitVec 3) (d : Byte) :
    decode (op ++ d) = match op.toFin with
      | 0 => .init
      | 1 => .feed d
      | 2 => .step
      | 3 => .byte d
      | 4 => .read
      | 5 => .reserved101 d
      | 6 => .reserved110 d
      | 7 => .reserved111 d := by
  obtain rfl | rfl | rfl | rfl | rfl | rfl | rfl | rfl := op_cases op
  all_goals simp only [decode, opField_append, dataField_append]
  all_goals try rfl

/-- A word given by its fields, as the spec writes it: the op's word or the data byte. -/
theorem append_eq_or (op : BitVec 3) (d : Byte) : (op ++ d : CmdWord) = (op ++ 0#8 : CmdWord) ||| d.setWidth 11 := by
  apply BitVec.eq_of_getLsbD_eq
  intro i hi
  rw [BitVec.getLsbD_or, getLsbD_opData, getLsbD_opData, BitVec.getLsbD_setWidth]
  by_cases h : i < 8
  · simp [h, hi]
  · have hd : d.getLsbD i = false := BitVec.getLsbD_of_ge d i (by omega)
    simp [h, hi, hd]

/-- A word's number from its fields. -/
theorem toNat_append (op : BitVec 3) (d : Byte) : (op ++ d : CmdWord).toNat = 256 * op.toNat + d.toNat := by
  rw [BitVec.toNat_append, Nat.shiftLeft_eq, Nat.mul_comm, ← Nat.two_pow_add_eq_or_of_lt d.isLt]

end Sys2Proof
end

