-- ==== Sys2Proof/Laws/PerInstr.lean ====
section
/-! SUPPORT. The family EncodeFields: the encoder puts a command's op in bits 10:8 and its data byte in bits 7:0
(30_encoding.md R39). -/

namespace Sys2Proof.Laws.EncodeFields

/-- The fields of a command's word are its op and its data byte. -/
def Statement (i : Instr) : Prop := opField (encode i) = i.op ∧ dataField (encode i) = i.data

theorem init : Statement .init := ⟨opField_append _ _, dataField_append _ _⟩
theorem feed (b : Byte) : Statement (.feed b) := ⟨opField_append _ _, dataField_append _ _⟩
theorem step : Statement .step := ⟨opField_append _ _, dataField_append _ _⟩
theorem byte (b : Byte) : Statement (.byte b) := ⟨opField_append _ _, dataField_append _ _⟩
theorem read : Statement .read := ⟨opField_append _ _, dataField_append _ _⟩
theorem reserved101 (low : Byte) : Statement (.reserved101 low) := ⟨opField_append _ _, dataField_append _ _⟩
theorem reserved110 (low : Byte) : Statement (.reserved110 low) := ⟨opField_append _ _, dataField_append _ _⟩
theorem reserved111 (low : Byte) : Statement (.reserved111 low) := ⟨opField_append _ _, dataField_append _ _⟩

end Sys2Proof.Laws.EncodeFields
end

