-- ==== Sys2Proof/Laws/Run.lean ====
section
/-! SUPPORT. Runs of many steps: the inductions over a run, packaged once, and the branches of a step under a quiet plan. -/

namespace Sys2Proof.Machine

/-- Any machine's run of `n + 1` steps, where its first step answers a next state. -/
theorem coreRun_succ_of_step {M : Host.Core} {s t : M.State} (n : Nat) (h : M.step s = .next t) :
    M.run (n + 1) s = M.run n t := by
  simp only [Host.Core.run, h]

theorem coreRun_succ {M : Host.Core} {s t : M.State} {n : Nat} (h : M.run (n + 1) s = .next t) :
    ∃ u, M.step s = .next u ∧ M.run n u = .next t := by
  cases hs : M.step s <;> simp only [Host.Core.run, hs] at h
  · exact ⟨_, rfl, h⟩
  all_goals exact absurd h (by simp)

@[simp] theorem run_zero (s : State) : run 0 s = .next s := rfl

theorem run_succ_of_step {s t : State} (n : Nat) (h : step s = .next t) :
    run (n + 1) s = run n t :=
  coreRun_succ_of_step (M := Sys2Proof.core) n h

theorem run_succ {s t : State} {n : Nat} (h : run (n + 1) s = .next t) :
    ∃ u, step s = .next u ∧ run n u = .next t :=
  coreRun_succ (M := Sys2Proof.core) h

/-- A run of `m` steps and then of `n` steps is one run. -/
theorem run_add {m n : Nat} {s u : State} (h : run m s = .next u) :
    run (m + n) s = run n u := by
  induction m generalizing s with
  | zero => rw [Nat.zero_add, Host.Outcome.next.inj h]
  | succ m ih =>
    obtain ⟨v, hv, hm⟩ := run_succ h
    rw [Nat.succ_add, run_succ_of_step _ hv, ih hm]

/-- What every step keeps, every run keeps. -/
theorem run_keeps {P : State → Prop} (hstep : ∀ s t, P s → step s = .next t → P t) {n : Nat} {s t : State} (hs : P s)
    (h : run n s = .next t) : P t := by
  induction n generalizing s with
  | zero => exact Host.Outcome.next.inj h ▸ hs
  | succ n ih =>
    obtain ⟨u, hu, hn⟩ := run_succ h
    exact ih (hstep s u hs hu) hn

/-- What every step gives as a reflexive and transitive relation, every run gives. -/
theorem run_relates {R : State → State → Prop} (hrefl : ∀ s, R s s) (htrans : ∀ s t u, R s t → R t u → R s u)
    (hstep : ∀ s t, step s = .next t → R s t) {n : Nat} {s t : State} (h : run n s = .next t) : R s t := by
  induction n generalizing s with
  | zero => exact Host.Outcome.next.inj h ▸ hrefl s
  | succ n ih =>
    obtain ⟨u, hu, hn⟩ := run_succ h
    exact htrans s u t (hstep s u hu) (ih hn)

/-- Under a quiet plan the next event is an edge without reset. -/
theorem nextEvent_of_quietPlan {s : State} (h : s.quietPlan = true) : ∃ offer, s.nextEvent = .edge false offer := by
  cases hp : s.plan with
  | nil => exact ⟨true, State.nextEvent_nil hp⟩
  | cons e es =>
    rw [State.nextEvent_cons hp]
    cases e with
    | edge rst offer =>
      simp [State.quietPlan, hp, HostEvent.isQuiet] at h
      exact ⟨offer, by rw [h.1]⟩
    | powerLoss => simp [State.quietPlan, hp, HostEvent.isQuiet] at h

theorem quietPlan_tail {s t : State} (ht : t.plan = s.plan.tail) (h : s.quietPlan = true) : t.quietPlan = true := by
  cases hp : s.plan with
  | nil => simp [State.quietPlan, ht, hp]
  | cons e es =>
    simp only [State.quietPlan, hp, List.all_cons, Bool.and_eq_true] at h
    simpa [State.quietPlan, ht, hp] using h.2

theorem quietPlan_of_nil {s : State} (h : s.plan = []) : s.quietPlan = true := by
  simp [State.quietPlan, h]

/-- The plan moves on by one event at every step. -/
theorem exec_plan {i : Instr} {s t : State} (h : exec i s = .next t) : t.plan = s.plan := by
  cases i <;> simp at h <;> simp [← h]

theorem step_plan {s t : State} (h : step s = .next t) : t.plan = s.plan.tail := by
  obtain ⟨_, rfl⟩ | ⟨_, _, rfl⟩ | ⟨_, _, _, rfl⟩ | ⟨_, _, u, _, _, _, _, hu, rfl⟩ |
    ⟨_, _, _, _, rfl | ⟨_, _, _, _, _, _, _, rfl⟩⟩ := step_cases h
  all_goals first | rfl | exact exec_plan hu

theorem step_quietPlan {s t : State} (h : s.quietPlan = true) (hs : step s = .next t) : t.quietPlan = true :=
  quietPlan_tail (step_plan hs) h

/-- A busy edge under a quiet plan. -/
theorem step_busy {s : State} (hq : s.quietPlan = true) (hk : s.k ≠ 0) :
    ∃ offer, step s = .next (busyEdge offer s.popEvent) := by
  obtain ⟨offer, he⟩ := nextEvent_of_quietPlan hq
  exact ⟨offer, by rw [step_edge he]; exact clockEdge_busy offer hk⟩

/-- The word an edge accepts is the one it presents, with no reset and the engine ready. -/
theorem acceptedWord_eq_some {s : State} {w : CmdWord} :
    s.acceptedWord = some w ↔ s.rstI = false ∧ s.cmdI = some w ∧ s.cmdReadyO = true := by
  unfold State.acceptedWord
  cases s.rstI <;> cases s.cmdReadyO <;> simp

/-- An accepted word's edge: no reset, the engine ready, and the word presented. -/
theorem acceptedWord_cases {s : State} {w : CmdWord} (h : s.acceptedWord = some w) :
    ∃ offer, s.nextEvent = .edge false offer ∧ s.k = 0 ∧ s.presented offer = some w := by
  obtain ⟨h1, h2, h3⟩ := acceptedWord_eq_some.mp h
  cases he : s.nextEvent with
  | powerLoss =>
    rw [State.cmdI_powerLoss he] at h2
    cases h2
  | edge rst offer =>
    rw [State.rstI_edge he] at h1
    subst h1
    exact ⟨offer, rfl, (State.cmdReadyO_iff s).mp h3, by rw [← State.cmdI_edge he, h2]⟩

theorem acceptedWord_of_presented {s : State} {offer : Bool} {w : CmdWord} (he : s.nextEvent = .edge false offer)
    (hk : s.k = 0) (hp : s.presented offer = some w) : s.acceptedWord = some w :=
  acceptedWord_eq_some.mpr ⟨State.rstI_edge he, by rw [State.cmdI_edge he, hp], (State.cmdReadyO_iff s).mpr hk⟩

theorem acceptedWord_of_busy {s : State} (h : s.k ≠ 0) : s.acceptedWord = none := by
  have hr : s.cmdReadyO = false := by simpa [State.cmdReadyO] using h
  simp [State.acceptedWord, hr]

/-- The step that accepts a word. -/
theorem step_accept {s : State} {w : CmdWord} (h : s.acceptedWord = some w) : step s = acceptEdge w s.popEvent := by
  obtain ⟨offer, he, hk, hp⟩ := acceptedWord_cases h
  rw [step_edge he, clockEdge_accept (s := s.popEvent) hk hp]

/-- The step of a reset edge. -/
theorem step_reset {s : State} (h : s.rstI = true) : step s = .next s.popEvent.resetEdge := by
  unfold State.rstI at h
  split at h
  · rename_i rst offer he
    subst h
    rw [step_edge he, clockEdge_reset]
  · exact absurd h Bool.false_ne_true

/-- A busy edge owes one step less. -/
theorem busyEdge_k_toNat (offer : Bool) {s : State} (h : s.k ≠ 0) : (busyEdge offer s).k.toNat + 1 = s.k.toNat := by
  have hk : ∀ k : Counter, k ≠ 0 → (k - 1).toNat + 1 = k.toNat := by decide
  exact hk s.k h

end Sys2Proof.Machine
end

