-- ==== Sys2Proof/Laws/Platform.lean ====
section
/-! SUPPORT. A platform's engines: how many there are, and that they take their free draws from different sources, which no
step changes (60_exceptions.md R91; log 14, log 16). -/

namespace Sys2Proof.Machine

@[simp] theorem Platform.reset_length (n : Nat) : (Platform.reset n).engines.length = n := by
  simp [Platform.reset]

/-- No two engines of a platform draw from one source. -/
theorem Platform.reset_drawSources (n : Nat) : (Platform.reset n).engines.map State.drawSource = List.range n := by
  simp [Platform.reset, Function.comp_def]

theorem Platform.powerOn_drawSources (n : Nat) : (Platform.powerOn n).engines.map State.drawSource = List.range n := by
  simp [Platform.powerOn, Platform.reset, Function.comp_def]

/-- Before the first reset, engine `i` holds draw 0 of source `i`. -/
theorem Platform.powerOn_engine {n i : Nat} (h : i < n) :
    (Platform.powerOn n).engines[i]? = some { State.powerOn with
      r := Config.powerOnR i 0, k := Config.powerOnK i 0, fault := Config.powerOnFault i 0, drawSource := i } := by
  simp [Platform.powerOn, Platform.reset, h]
  rfl

/-- The platform of one engine before its first reset is that engine alone. -/
theorem Platform.powerOn_one : Platform.powerOn 1 = ⟨[State.powerOn]⟩ := rfl

theorem exec_drawSource {i : Instr} {s t : State} (h : exec i s = .next t) : t.drawSource = s.drawSource := by
  cases i <;> simp at h <;> simp [← h]

/-- A step never changes whose draws an engine takes. -/
theorem step_drawSource {s t : State} (h : step s = .next t) : t.drawSource = s.drawSource := by
  obtain ⟨_, rfl⟩ | ⟨_, _, rfl⟩ | ⟨_, _, _, rfl⟩ | ⟨_, _, u, _, _, _, _, hu, rfl⟩ |
    ⟨_, _, _, _, rfl | ⟨_, _, _, _, _, _, _, rfl⟩⟩ := step_cases h
  all_goals first | rfl | simpa using exec_drawSource hu

end Sys2Proof.Machine
end

