-- ==== Sys2Proof/Laws/Transaction.lean ====
section
/-! SUPPORT. The transaction-level machine over a list of words. -/

namespace Sys2Proof.Machine

@[simp] theorem Transaction.run_nil (t : Transaction) : Transaction.run [] t = t := rfl

theorem Transaction.run_cons (w : CmdWord) (ws : List CmdWord) (t : Transaction) :
    Transaction.run (w :: ws) t = Transaction.run ws (t.exec (decode w)) := rfl

theorem Transaction.run_append (as bs : List CmdWord) (t : Transaction) :
    Transaction.run (as ++ bs) t = Transaction.run bs (Transaction.run as t) := List.foldl_append

/-- A message keeps a zero low byte (10_state.md R17). -/
theorem feedMessage_joinBytes (msg : List Byte) (c : Byte) : ∃ d, feedMessage msg (joinBytes c 0) = joinBytes d 0 := by
  induction msg generalizing c with
  | nil => exact ⟨c, rfl⟩
  | cons b msg ih =>
    have hb : consumeByte b (joinBytes c 0) = joinBytes (narrowSteps Config.stepsPerByte (c ^^^ b)) 0 := by
      rw [consumeByte, loadByte_joinBytes, divSteps_joinBytes]
    obtain ⟨d, hd⟩ := ih (narrowSteps Config.stepsPerByte (c ^^^ b))
    exact ⟨d, by rw [← hd, ← hb]; rfl⟩

/-- After a message from 0, R is the checksum over a zero low byte. -/
theorem feedMessage_zero (msg : List Byte) : feedMessage msg 0 = joinBytes (crc8 msg) 0 := by
  have h0 : (0 : Reg) = joinBytes 0 0 := by decide
  obtain ⟨d, hd⟩ := feedMessage_joinBytes msg 0
  rw [crc8, h0, hd, highByte_joinBytes]

end Sys2Proof.Machine
end

