-- ==== Sys2Proof/Tests/Slice0.lean ====
section
/-! SUPPORT. Tests: expected values are those of spec/95_test_vectors.md or hand readings of the rule a name cites; the
`witness_` theorems show states that meet the hypotheses of the obligations. -/

-- One thread at a time: many small evaluations in parallel reserve more memory than the check allows.
set_option Elab.async false

open Sys2Proof Sys2Proof.Machine

namespace Sys2Proof.Tests

/-- The machine after reset with a stream to present. -/
def withStream (ws : List CmdWord) : State := { State.reset with stream := ws }

/-- The machine after reset with R set. -/
def withR (v : Reg) : State := { State.reset with r := v }

/-- One field of the next state, if there is one. -/
def after {α : Type} (f : State → α) (o : Host.Outcome State Fault Refusal) : Option α := (nextState? o).map f

/-! ### Well-formedness: each check refuses an ill-formed term (30_encoding.md R46, R49) -/

theorem test_word_range : wordWellFormed 0x7FF = true ∧ wordWellFormed 0x800 = false := by decide
theorem test_byte_range : byteWellFormed 255 = true ∧ byteWellFormed 256 = false := by decide
theorem test_feed_operand : (AsmStmt.feed 256).wellFormed = false := by decide
theorem test_byte_operand : (AsmStmt.byte 256).wellFormed = false := by decide
theorem test_checksum_operand : (AsmStmt.checksum [0, 300]).wellFormed = false := by decide
theorem test_word_operand : (AsmStmt.word 0x800).wellFormed = false := by decide
theorem test_others_wellFormed : ([.init, .step, .read, .drain, .feed 0, .byte 255, .word 0x7FF].all AsmStmt.wellFormed) = true := by
  decide

/-! ### Decoding: words written out from the encoding of 30_encoding.md R41 -/

theorem test_decode_init : decode 0b00000000000 = .init ∧ decode 0b00011111111 = .init := by decide
theorem test_decode_feed : decode 0b00110110100 = .feed 0xB4 := by decide
theorem test_decode_step : decode 0b01000000000 = .step ∧ decode 0b01010100101 = .step := by decide
theorem test_decode_byte : decode 0b01111111111 = .byte 0xFF := by decide
theorem test_decode_read : decode 0b10000000000 = .read ∧ decode 0b10011111111 = .read := by decide
theorem test_decode_reserved : decode 0b10100000000 = .reserved101 0x00 ∧ decode 0b11010101010 = .reserved110 0xAA ∧
    decode 0b11111111111 = .reserved111 0xFF := by decide
theorem test_decode_too_wide : decodeTableWord 16 0x800 = none ∧ decodeTableWord 16 0x3B4 = some (.byte 0xB4) ∧
    decodeTableWord 8 0x3B4 = some .init := by decide
theorem test_encode_words : encode .init = 0x000 ∧ encode (.feed 0xB4) = 0x1B4 ∧ encode .step = 0x200 ∧
    encode (.byte 0xB4) = 0x3B4 ∧ encode .read = 0x400 := by decide

/-! ### Commands (the families' vectors) -/

theorem test_init : after State.r (exec .init (withR 0x4800)) = some 0x0000 := by decide
theorem test_init_keeps_fault : after State.fault (exec .init { withR 0x0700 with fault := true }) = some true := by decide
theorem test_feed : after State.r (exec (.feed 0x07) (withR 0x0500)) = some 0x0200 := by decide
theorem test_feed_low_byte : after State.r (exec (.feed 0x00) (withR 0x1234)) = some 0x1234 := by decide
theorem test_step_xor : after State.r (exec .step (withR 0xFF00)) = some 0xF900 ∧
    after State.r (exec .step (withR 0x8380)) = some 0x0000 := by decide
theorem test_step_unreachable : after State.r (exec .step (withR 0xFFFF)) = some 0xF8FE ∧
    after State.r (exec .step (withR 0x00FF)) = some 0x01FE := by decide
theorem test_byte_first_edge : after State.r (exec (.byte 0xB4) State.reset) = some 0x6F00 ∧
    after State.k (exec (.byte 0xB4) State.reset) = some 7 := by decide
theorem test_byte_whole : (Transaction.exec ⟨0x0500, false, []⟩ (.byte 0x00)).r = 0x1B00 ∧
    (Transaction.exec ⟨0x0E00, false, []⟩ (.byte 0xB5)).r = 0x2800 := by decide
theorem test_read : after State.out (exec .read { withR 0x3000 with out := [0x30] }) = some [0x30, 0x30] := by decide
theorem test_reserved101 : exec (.reserved101 0xFF) (withR 0x0700) = .next { withR 0x0700 with fault := true } := rfl
theorem test_reserved110 : after State.fault (exec (.reserved110 0x00) State.reset) = some true := by decide
theorem test_reserved111_again : after State.fault (exec (.reserved111 0xFF) { State.reset with fault := true }) = some true := by
  decide

/-! ### The cycle level -/

theorem test_busy_edge : after State.r (step { withR 0x6F00 with k := 7 }) = some 0xDE00 ∧
    after State.k (step { withR 0x6F00 with k := 7 }) = some 6 := by decide
theorem test_last_busy_edge : after State.r (step { withR 0x8100 with k := 1 }) = some 0x0500 ∧
    after State.cmdReadyO (step { withR 0x8100 with k := 1 }) = some true := by decide
theorem test_reset_discards : step { withR 0xDE00 with k := 6, fault := true, stream := [0x3B4], plan := [.edge true true] } =
    .next (withStream [0x3B4]) := rfl
theorem test_busy_accepts_nothing : after State.hpc (step { withStream [0x400] with k := 3 }) = some 0 ∧
    after State.holding (step { withStream [0x400] with k := 3 }) = some true := by decide
theorem test_pause_changes_nothing : after State.hpc (step { withStream [0x000] with plan := [.edge false false] }) = some 0 := by
  decide
theorem test_held_word_is_accepted :
    after State.hpc (step { withStream [0x000] with holding := true, plan := [.edge false false] }) = some 1 := by decide
theorem test_before_reset : refusal? (step { withStream [0x000] with resetSeen := false }) = some .commandBeforeReset := by decide
theorem test_contract_violation :
    refusal? (step { State.reset with calls := [⟨some [0xB4], 2⟩] }) = some .contractViolation ∧
    refusal? (step { State.reset with calls := [⟨none, 1⟩] }) = some .contractViolation := by decide
theorem test_call : after State.stream (step { State.reset with calls := [⟨some [0xB4, 0x07], 1⟩] }) = some [0x000, 0x3B4, 0x400] := by
  decide
theorem test_fetch_word : after State.fault (step ({ State.reset with k := 3, hpc := 2 }.withFetchWord 16 0x5FF)) = some true := by
  decide
theorem test_outputs : (withR 0x3080).pecO = 0x30 ∧ { State.reset with k := 1 }.cmdReadyO = false ∧
    { State.reset with fault := true }.recordedFault.map Fault.code = some 1 := by decide

/-! ### The checksum (V1 to V8) -/

theorem test_scenario_1 : crc8 [0xB4, 0x07, 0xB5, 0xD2, 0x3A] = 0x30 := by decide +kernel
theorem test_scenario_2 : crc8 [0xB4, 0x22, 0x07, 0xC8] = 0x48 := by decide +kernel
theorem test_check_value : crc8 [0x31, 0x32, 0x33, 0x34, 0x35, 0x36, 0x37, 0x38, 0x39] = 0xF4 := by decide +kernel
theorem test_leading_zero : crc8 [0x00, 0x01] = 0x07 ∧ crc8 [0x01, 0x00] = 0x15 := by decide +kernel
theorem test_linearity : crc8 [0x12, 0x34, 0x56, 0x78, 0x9A] = 0x9B := by decide +kernel
theorem test_contract : ChecksumCall.checksum ⟨some [0x01, 0xFF], 1⟩ = some 0x07 ∧ ChecksumCall.checksum ⟨some [], 0⟩ = some 0x00 := by
  decide +kernel
theorem test_wide_register : wideMessage 32 [0xB4, 0x22, 0x07, 0xC8] = 0x4800 := by decide +kernel
theorem test_narrow_form : narrowByte 0xB5 0x0E = 0x28 := by decide +kernel

/-- The row of V4 whose high digit is `h`. -/
def tableRow (h : Nat) : List Byte := (List.range 16).map (fun l => crc8 [BitVec.ofNat 8 (16 * h + l)])

theorem test_table_rows_0_to_3 : tableRow 0x0 = [0x00, 0x07, 0x0E, 0x09, 0x1C, 0x1B, 0x12, 0x15, 0x38, 0x3F, 0x36, 0x31, 0x24, 0x23, 0x2A, 0x2D] ∧
    tableRow 0x1 = [0x70, 0x77, 0x7E, 0x79, 0x6C, 0x6B, 0x62, 0x65, 0x48, 0x4F, 0x46, 0x41, 0x54, 0x53, 0x5A, 0x5D] ∧
    tableRow 0x2 = [0xE0, 0xE7, 0xEE, 0xE9, 0xFC, 0xFB, 0xF2, 0xF5, 0xD8, 0xDF, 0xD6, 0xD1, 0xC4, 0xC3, 0xCA, 0xCD] ∧
    tableRow 0x3 = [0x90, 0x97, 0x9E, 0x99, 0x8C, 0x8B, 0x82, 0x85, 0xA8, 0xAF, 0xA6, 0xA1, 0xB4, 0xB3, 0xBA, 0xBD] := by
  decide +kernel
theorem test_table_rows_4_to_7 : tableRow 0x4 = [0xC7, 0xC0, 0xC9, 0xCE, 0xDB, 0xDC, 0xD5, 0xD2, 0xFF, 0xF8, 0xF1, 0xF6, 0xE3, 0xE4, 0xED, 0xEA] ∧
    tableRow 0x5 = [0xB7, 0xB0, 0xB9, 0xBE, 0xAB, 0xAC, 0xA5, 0xA2, 0x8F, 0x88, 0x81, 0x86, 0x93, 0x94, 0x9D, 0x9A] ∧
    tableRow 0x6 = [0x27, 0x20, 0x29, 0x2E, 0x3B, 0x3C, 0x35, 0x32, 0x1F, 0x18, 0x11, 0x16, 0x03, 0x04, 0x0D, 0x0A] ∧
    tableRow 0x7 = [0x57, 0x50, 0x59, 0x5E, 0x4B, 0x4C, 0x45, 0x42, 0x6F, 0x68, 0x61, 0x66, 0x73, 0x74, 0x7D, 0x7A] := by
  decide +kernel
theorem test_table_rows_8_to_11 : tableRow 0x8 = [0x89, 0x8E, 0x87, 0x80, 0x95, 0x92, 0x9B, 0x9C, 0xB1, 0xB6, 0xBF, 0xB8, 0xAD, 0xAA, 0xA3, 0xA4] ∧
    tableRow 0x9 = [0xF9, 0xFE, 0xF7, 0xF0, 0xE5, 0xE2, 0xEB, 0xEC, 0xC1, 0xC6, 0xCF, 0xC8, 0xDD, 0xDA, 0xD3, 0xD4] ∧
    tableRow 0xA = [0x69, 0x6E, 0x67, 0x60, 0x75, 0x72, 0x7B, 0x7C, 0x51, 0x56, 0x5F, 0x58, 0x4D, 0x4A, 0x43, 0x44] ∧
    tableRow 0xB = [0x19, 0x1E, 0x17, 0x10, 0x05, 0x02, 0x0B, 0x0C, 0x21, 0x26, 0x2F, 0x28, 0x3D, 0x3A, 0x33, 0x34] := by
  decide +kernel
theorem test_table_rows_12_to_15 : tableRow 0xC = [0x4E, 0x49, 0x40, 0x47, 0x52, 0x55, 0x5C, 0x5B, 0x76, 0x71, 0x78, 0x7F, 0x6A, 0x6D, 0x64, 0x63] ∧
    tableRow 0xD = [0x3E, 0x39, 0x30, 0x37, 0x22, 0x25, 0x2C, 0x2B, 0x06, 0x01, 0x08, 0x0F, 0x1A, 0x1D, 0x14, 0x13] ∧
    tableRow 0xE = [0xAE, 0xA9, 0xA0, 0xA7, 0xB2, 0xB5, 0xBC, 0xBB, 0x96, 0x91, 0x98, 0x9F, 0x8A, 0x8D, 0x84, 0x83] ∧
    tableRow 0xF = [0xDE, 0xD9, 0xD0, 0xD7, 0xC2, 0xC5, 0xCC, 0xCB, 0xE6, 0xE1, 0xE8, 0xEF, 0xFA, 0xFD, 0xF4, 0xF3] := by
  decide +kernel

/-! ### The assembler (30_encoding.md R46 to R50) -/

theorem test_assemble_line : assembleLine ['b', 'y', 't', 'e', ' ', '0', 'x', 'B', '4', ' ', ';', 'x'] = .ok [0x3B4] := by
  decide +kernel
theorem test_assemble_decimal : assembleLine [' ', 'F', 'E', 'E', 'D', ' ', '2', '5', '5'] = .ok [0x1FF] := by decide +kernel
theorem test_assemble_out_of_range : assembleLine ['F', 'E', 'E', 'D', ' ', '2', '5', '6'] = .error .operandOutOfRange := by
  decide +kernel
theorem test_assemble_missing : assembleLine ['B', 'Y', 'T', 'E'] = .error .missingOperand := by decide +kernel
theorem test_assemble_unexpected : assembleLine ['I', 'N', 'I', 'T', ' ', '3'] = .error .unexpectedOperand := by decide +kernel
theorem test_assemble_bad_number : assembleLine ['B', 'Y', 'T', 'E', ' ', '0', 'x'] = .error .badNumber := by decide +kernel
theorem test_assemble_unknown : assembleLine ['H', 'A', 'L', 'T'] = .error .unknownMnemonic := by decide +kernel
theorem test_assemble_comment : assembleLine [';', ' ', 'x'] = .ok [] := by decide +kernel
theorem test_assemble_word : assembleLine ['.', 'w', 'o', 'r', 'd', ' ', '0', 'x', '5', 'F', 'F'] = .ok [0x5FF] := by decide +kernel
theorem test_assemble_text : assemble ['C', 'H', 'E', 'C', 'K', 'S', 'U', 'M', ' ', '1', ',', ' ', '2', '\n', 'D', 'R', 'A', 'I', 'N'] =
    .ok ([0x000, 0x301, 0x302, 0x400] ++ List.replicate 8 0x200) := by decide +kernel
theorem test_disassemble : disassemble 0x1B4 = ['F', 'E', 'E', 'D', ' ', '0', 'x', 'B', '4'] ∧
    disassemble 0x0FF = ['I', 'N', 'I', 'T'] ∧ disassemble 0x7AF = ['.', 'w', 'o', 'r', 'd', ' ', '0', 'x', '7', 'A', 'F'] := by
  decide +kernel

/-! ### Witnesses: states that meet the obligations' hypotheses -/

/-- A ready machine about to accept BYTE 0xB4, whose host pauses now and then. -/
def readyByte : State := { withStream [0x3B4] with plan := [.edge false true, .edge false false] }

/-- A machine that has accepted BYTE 0xB4 one edge ago. -/
def busyByte : State := { withStream [0x3B4, 0x400] with r := 0x6F00, k := 7, hpc := 1 }

/-- A stream of INIT, READ, READ, INIT, READ: two empty messages with an empty continuation between them. -/
def emptyMessages : State := withStream [0x000, 0x400, 0x400, 0x000, 0x400]

theorem witness_reset_edge : { busyByte with plan := [.edge true true] }.rstI = true := by decide
theorem witness_command_before_reset : { readyByte with resetSeen := false }.resetSeen = false ∧
    { readyByte with resetSeen := false }.acceptedWord = some 0x3B4 := by decide
theorem witness_power_loss : { busyByte with plan := [.powerLoss] }.nextEvent = .powerLoss := by decide
theorem witness_byte_accepted : readyByte.resetSeen = true ∧ readyByte.quietPlan = true ∧
    readyByte.acceptedWord = some (0x300#11 ||| (0xB4#8).setWidth 11) := by decide
theorem witness_read_from_zero : State.reset.r = 0x0000 := by decide
theorem witness_reserved_words : 0x500 ≤ (0x500 : CmdWord).toNat ∧ 0x500 ≤ (0x7FF : CmdWord).toNat ∧ busyByte.busy = true := by decide
theorem witness_fault_cleared : ∃ s t, step s = .next t ∧ s.rstI = true ∧ s.fault = true :=
  ⟨{ State.reset with fault := true, plan := [.edge true false] }, _, rfl, by decide, by decide⟩
theorem witness_fault_set : ∃ s t, step s = .next t ∧ s.rstI = false ∧ s.nextEvent ≠ .powerLoss ∧ s.acceptedWord = some 0x500 :=
  ⟨withStream [0x500], _, rfl, by decide, by decide, by decide⟩
theorem witness_illegal_accepted : (withStream [0x5FF]).resetSeen = true ∧ (withStream [0x5FF]).acceptedWord = some 0x5FF ∧
    0x500 ≤ (0x5FF : CmdWord).toNat := by decide
theorem witness_fault_stays : ∃ s t, s.quietPlan = true ∧ s.faultO = true ∧ run 1 s = .next t :=
  ⟨{ withStream [0x000] with fault := true }, _, by decide, by decide, rfl⟩
theorem witness_exec_next : ∃ t, exec (.byte 0xB4) State.reset = .next t := ⟨_, rfl⟩
theorem witness_feed_drain : busyByte.plan = [] ∧ State.reset.k = 0 ∧ State.reset.plan = [] ∧ State.reset.resetSeen = true := by decide
theorem witness_same_op : opField 0x2A5 = opField 0x200 ∧ opField 0x2A5 ≠ 1 ∧ opField 0x2A5 ≠ 3 := by decide
theorem witness_legal_command : (Instr.byte 0xFF).isReserved = false := by decide
theorem witness_ignored_op_fields : opField 0x0FF = 0 ∧ opField 0x1FF = 1 ∧ opField 0x2FF = 2 ∧ opField 0x3FF = 3 ∧
    opField 0x4FF = 4 ∧ opField 0x5FF = 5 ∧ opField 0x6FF = 6 ∧ opField 0x7FF = 7 := by decide
theorem witness_number_range : 0x7FF ≤ 0x7FF ∧ 0x7FF < 0x800 := by decide
theorem witness_other_op : (0b111 : BitVec 3) ≠ 0b100 := by decide
theorem witness_operands : (∀ b ∈ [0, 255], b ≤ 255) ∧ ∃ b ∈ [255, 256], 255 < b := by decide
theorem witness_cycle_reset : { busyByte with plan := [.edge true false] }.resetSeen = true ∧
    { busyByte with plan := [.edge true false] }.nextEvent = .edge true false := by decide
theorem witness_cycle_busy : busyByte.resetSeen = true ∧ busyByte.nextEvent = .edge false true ∧ busyByte.k ≠ 0 := by decide
theorem witness_cycle_accept : readyByte.nextEvent = .edge false true ∧ readyByte.k = 0 ∧ readyByte.cmdI = some 0x3B4 := by decide
theorem witness_cycle_idle : ∃ t, step State.reset = .next t ∧ State.reset.nextEvent = .edge false true ∧ State.reset.k = 0 ∧
    State.reset.cmdI = none ∧ State.reset.calls = [] := ⟨_, rfl, by decide, by decide, by decide, by decide⟩
theorem witness_step_runs : readyByte.resetSeen = true ∧ readyByte.acceptedWord = some 0x3B4 := by decide
theorem witness_step_next : ∃ t, step readyByte = .next t ∧ readyByte.Inv :=
  ⟨_, rfl, by decide, by decide, by decide⟩
theorem witness_busy_or_reset : busyByte.k ≠ 0 ∨ false = true := by decide
theorem witness_held : ∃ t, step busyByte = .next t ∧ busyByte.rstI = false ∧ busyByte.cmdI = some 0x400 ∧
    busyByte.acceptedWord = none ∧ t.nextEvent ≠ .powerLoss := ⟨_, rfl, by decide, by decide, by decide, by decide⟩
theorem witness_busy_period : busyByte.quietPlan = true ∧ 6 < busyByte.k.toNat := by decide
theorem witness_refinement : ∃ t, emptyMessages.quietPlan = true ∧ emptyMessages.k = 0 ∧ run 5 emptyMessages = .next t ∧ t.k = 0 :=
  ⟨_, by decide, by decide, rfl, by decide⟩
theorem witness_one_cycle_command : emptyMessages.resetSeen = true ∧ emptyMessages.quietPlan = true ∧
    emptyMessages.acceptedWord = some 0x000 := by decide
theorem witness_clean_run : ∃ t, emptyMessages.quietPlan = true ∧ run 5 emptyMessages = .next t ∧ t.failedRun = false :=
  ⟨_, by decide, rfl, by decide⟩
theorem witness_ended_run : State.reset.quietPlan = true ∧ State.reset.runEnded = true ∧ State.reset.calls = [] := by decide
theorem witness_checksum_stream : 1 ≤ [0xB4#8, 0x07#8].length ∧ { readyByte with stream := [0x000, 0x3B4, 0x400] }.resetSeen = true ∧
    { readyByte with stream := [0x000, 0x3B4, 0x400] }.k = 0 ∧ { readyByte with stream := [0x000, 0x3B4, 0x400] }.fault = false ∧
    { readyByte with stream := [0x000, 0x3B4, 0x400] }.quietPlan = true ∧ { readyByte with stream := [0x000, 0x3B4, 0x400] }.calls = [] ∧
    { readyByte with stream := [0x000, 0x3B4, 0x400] }.stream.drop 0 = checksumWords ([0xB4#8, 0x07#8].take 1) := by decide
theorem witness_checksum_ends : ∃ t, run 2 (withStream (checksumWords [])) = .next t ∧ t.runEnded = true ∧
    (withStream (checksumWords [])).stream.drop 0 = checksumWords ([].take 0) := ⟨_, rfl, by decide, by decide⟩
theorem witness_checksum_cycles : (withStream (checksumWords [0xB4])).plan = [] ∧ 0 < [0xB4#8].length ∧
    (withStream (checksumWords [0xB4])).stream.drop 0 = checksumWords [0xB4] ∧
    (withStream (encode (.feed 0xB4) :: drainWords)).stream.drop 0 = encode (.feed 0xB4) :: drainWords := by decide
theorem witness_violation_absent : ∃ c : ChecksumCall, (c.data = none ∧ 0 < c.length) ∧ { busyByte with calls := [c] }.calls.head? = some c ∧
    ∃ t, step { busyByte with calls := [c] } = .next t := ⟨⟨none, 1⟩, by decide, rfl, _, rfl⟩
theorem witness_violation_too_long : ∃ c : ChecksumCall, (∃ data, c.data = some data ∧ data.length < c.length) ∧
    ∃ t, step { busyByte with calls := [c] } = .next t := ⟨⟨some [0xB4], 2⟩, ⟨[0xB4], by decide, by decide⟩, _, rfl⟩
theorem witness_call : { State.reset with calls := [⟨some [0xB4], 1⟩] }.nextEvent = .edge false true ∧
    { State.reset with calls := [⟨some [0xB4], 1⟩] }.k = 0 ∧ { State.reset with calls := [⟨some [0xB4], 1⟩] }.stream[0]? = none ∧
    1 ≤ [0xB4#8].length ∧ [0xB4#8].length < 2 := by decide
theorem witness_independence : ∃ t, emptyMessages.resetSeen = true ∧ emptyMessages.k = 0 ∧ emptyMessages.quietPlan = true ∧
    emptyMessages.calls = [] ∧
    emptyMessages.stream.drop emptyMessages.hpc =
      checksumWords [] ++ (([] : List Byte).map (fun x => encode (.byte x)) ++ [encode .read]) ++ checksumWords [] ∧
    run 5 emptyMessages = .next t ∧ t.runEnded = true :=
  ⟨_, by decide, by decide, by decide, by decide, by decide, rfl, by decide⟩
theorem witness_width : 16 ≤ 16 ∧ 16 ≤ 32 := by decide
theorem witness_prefix_residue : (⟨0x0500, false, []⟩ : Transaction).r = joinBytes (crc8 [0xB4]) 0x00 := by decide +kernel
theorem witness_equal_lengths : [0xB4#8, 0x07#8].length = [0x12#8, 0x34#8].length := by decide
theorem witness_bit_position : 0 < [0xB4#8].length ∧ 7 < 8 := by decide
theorem witness_platform : ∃ q, (Platform.reset 2).step = .next q ∧ 1 < (Platform.reset 2).engines.length ∧
    ∀ s ∈ (Platform.reset 2).engines, ∃ t, step s = .next t :=
  ⟨_, rfl, by decide, fun s hs => by
    obtain ⟨i, -, rfl⟩ := List.mem_map.mp hs
    exact ⟨_, rfl⟩⟩
theorem witness_equal_engines : ∃ s u : State, s ≠ u ∧ s.r = u.r ∧ s.k = u.k ∧ s.fault = u.fault :=
  ⟨State.reset, withStream [0x000], by decide, rfl, rfl, rfl⟩

end Sys2Proof.Tests
end

section
/-! SUPPORT. FAULT's whole life: which words are reserved, what each command and each step does to FAULT
(10_state.md R15, 30_encoding.md R43). -/

namespace Sys2Proof.Machine

/-- Of the ops only 101, 110 and 111 are reserved, whatever the data byte. -/
theorem decode_append_isReserved (op : BitVec 3) (d : Byte) :
    (decode (op ++ d)).isReserved = decide (5 ≤ op.toNat) := by
  rw [decode_append]
  obtain rfl | rfl | rfl | rfl | rfl | rfl | rfl | rfl := op_cases op <;> rfl

/-- The reserved commands are the words from 0x500 (30_encoding.md R43). -/
theorem decode_isReserved_iff (w : CmdWord) : (decode w).isReserved = true ↔ 0x500 ≤ w.toNat := by
  rw [← opField_append_dataField w, decode_append_isReserved, toNat_append, decide_eq_true_iff]
  have hd : (dataField w).toNat < 256 := (dataField w).isLt
  omega

/-- A command sets FAULT if it is reserved, and no command clears it. -/
theorem exec_fault {i : Instr} {s t : State} (h : exec i s = .next t) : t.fault = (s.fault || i.isReserved) := by
  cases i <;> simp at h <;> simp [← h, Instr.isReserved]

theorem step_fault_of_acceptedWord {s t : State} {w : CmdWord} (h : step s = .next t) (hw : s.acceptedWord = some w) :
    t.fault = (s.fault || (decode w).isReserved) := by
  rw [step_accept hw] at h
  obtain ⟨-, u, hu, rfl⟩ := acceptEdge_next h
  simpa using exec_fault hu

/-- An edge that accepts nothing and does not reset leaves FAULT as it is. -/
theorem step_fault_of_acceptedWord_none {s t : State} (h : step s = .next t) (hr : s.rstI = false)
    (hp : s.nextEvent ≠ .powerLoss) (hw : s.acceptedWord = none) : t.fault = s.fault := by
  obtain ⟨he, -⟩ | ⟨offer, he, -⟩ | ⟨offer, -, -, rfl⟩ | ⟨offer, w, u, he, hk, hpres, -⟩ |
    ⟨offer, -, -, -, rfl | ⟨c, rest, msg, -, -, -, -, rfl⟩⟩ := step_cases h
  · exact absurd he hp
  · exact absurd (hr.symm.trans (State.rstI_edge he)) Bool.false_ne_true
  · rfl
  · exact absurd (hw.symm.trans (acceptedWord_of_presented he hk hpres)) (Option.some_ne_none w).symm
  · rfl
  · rfl

/-- After an edge without reset FAULT is 1 exactly if it was or a reserved word was accepted. -/
theorem step_fault_iff {s t : State} (h : step s = .next t) (hr : s.rstI = false) (hp : s.nextEvent ≠ .powerLoss) :
    t.fault = true ↔ s.fault = true ∨ ∃ w, s.acceptedWord = some w ∧ 0x500 ≤ w.toNat := by
  cases hw : s.acceptedWord with
  | none => simp [step_fault_of_acceptedWord_none h hr hp hw]
  | some w => simp [step_fault_of_acceptedWord h hw, decode_isReserved_iff]

theorem step_reset_fault {s t : State} (h : step s = .next t) (hr : s.rstI = true) : t.fault = false := by
  rw [step_reset hr] at h
  rw [← Host.Outcome.next.inj h]
  rfl

end Sys2Proof.Machine

/-- Settles O12: an edge that accepts a word changes FAULT as its command does, any other edge without reset keeps it, and a
reset edge clears it. -/
theorem faultSetByIllegalClearedByReset : Obligations.FaultSetByIllegalClearedByReset :=
  ⟨fun _ _ => Sys2Proof.Machine.step_reset_fault, fun _ _ => Sys2Proof.Machine.step_fault_iff, fun _ => rfl⟩
end

section
/-! SUPPORT. The decoder and the encoder on a word's fields: one equation per op, and where re-encoding gives back the word
(30_encoding.md R41, R45). -/

namespace Sys2Proof

section
variable {w : CmdWord}

theorem decode_of_op0 (h : opField w = 0) : decode w = .init := by
  rw [decode, h]; rfl

theorem decode_of_op1 (h : opField w = 1) : decode w = .feed (dataField w) := by
  rw [decode, h]; rfl

theorem decode_of_op2 (h : opField w = 2) : decode w = .step := by
  rw [decode, h]; rfl

theorem decode_of_op3 (h : opField w = 3) : decode w = .byte (dataField w) := by
  rw [decode, h]; rfl

theorem decode_of_op4 (h : opField w = 4) : decode w = .read := by
  rw [decode, h]; rfl

theorem decode_of_op5 (h : opField w = 5) : decode w = .reserved101 (dataField w) := by
  rw [decode, h]; rfl

theorem decode_of_op6 (h : opField w = 6) : decode w = .reserved110 (dataField w) := by
  rw [decode, h]; rfl

theorem decode_of_op7 (h : opField w = 7) : decode w = .reserved111 (dataField w) := by
  rw [decode, h]; rfl

end

/-- The decoder inverts the encoder, on the reserved commands too. -/
theorem decode_encode (i : Instr) : decode (encode i) = i := by
  rw [encode, decode_append]
  cases i <;> rfl

/-- Decoding keeps a word's op. -/
theorem op_decode (w : CmdWord) : (decode w).op = opField w := by
  obtain h | h | h | h | h | h | h | h := op_cases (opField w) <;> rw [decode, h] <;> rfl

/-- Decoding keeps a word's data byte, but for the bits INIT, STEP and READ ignore (30_encoding.md R42). -/
theorem data_decode (w : CmdWord) :
    (decode w).data = if opField w = 0 ∨ opField w = 2 ∨ opField w = 4 then 0 else dataField w := by
  obtain h | h | h | h | h | h | h | h := op_cases (opField w) <;> rw [decode, h] <;> rfl

/-- Two words are equal if their ops and data bytes are. -/
theorem word_eq_iff {v w : CmdWord} : v = w ↔ opField v = opField w ∧ dataField v = dataField w := by
  refine ⟨by rintro rfl; exact ⟨rfl, rfl⟩, fun ⟨ho, hd⟩ => ?_⟩
  rw [← opField_append_dataField v, ho, hd, opField_append_dataField]

/-- Re-encoding a decoded word gives it back exactly where its ignored bits are 0. -/
theorem encode_decode_eq_iff (w : CmdWord) :
    encode (decode w) = w ↔ (opField w = 0 ∨ opField w = 2 ∨ opField w = 4 → dataField w = 0) := by
  rw [word_eq_iff, encode, opField_append, dataField_append, op_decode, data_decode]
  by_cases hi : opField w = 0 ∨ opField w = 2 ∨ opField w = 4
  · rw [if_pos hi]
    exact ⟨fun h _ => h.2.symm, fun h => ⟨rfl, (h hi).symm⟩⟩
  · rw [if_neg hi]
    exact ⟨fun _ h => absurd h hi, fun _ => ⟨rfl, rfl⟩⟩

theorem isReserved_decode (w : CmdWord) : (decode w).isReserved = decide (5 ≤ (opField w).toNat) := by
  rw [← Machine.decode_append_isReserved (opField w) (dataField w), opField_append_dataField]

/-- A reserved word has no ignored bits. -/
theorem encode_decode_of_five_le {w : CmdWord} (h : 5 ≤ (opField w).toNat) : encode (decode w) = w := by
  refine (encode_decode_eq_iff w).mpr fun ho => ?_
  obtain ho | ho | ho := ho <;> exact absurd (ho ▸ h) (by decide)

/-- FEED's word, as the spec writes it. -/
theorem encode_feed (b : Byte) : encode (.feed b) = 0x100#11 ||| b.setWidth 11 := append_eq_or 1 b

/-- BYTE's word, as the spec writes it. -/
theorem encode_byte (b : Byte) : encode (.byte b) = 0x300#11 ||| b.setWidth 11 := append_eq_or 3 b

/-- The mask of every row keeps a word's op and clears its data byte. -/
theorem and_opMask (w : CmdWord) : w &&& 0x700#11 = (opField w ++ 0#8 : CmdWord) := by
  have hmask : 0x700#11 = (BitVec.allOnes 3 ++ 0#8 : CmdWord) := rfl
  rw [← opField_append_dataField w, hmask, BitVec.and_append, BitVec.and_allOnes, BitVec.and_zero, opField_append]

/-- A row of the opcode map selects the words whose op is the row's (30_encoding.md R41). -/
theorem selects_iff_op_eq {row : OpcodeRow} (h : row ∈ opcodeTable) (w : CmdWord) :
    row.selects w = true ↔ row.op = opField w := by
  obtain ⟨hm, hp⟩ : row.mask = 0x700#11 ∧ row.pattern = (row.op ++ 0#8 : CmdWord) := by
    revert row
    decide
  rw [OpcodeRow.selects, hm, hp, and_opMask, beq_iff_eq, word_eq_iff, opField_append, opField_append, dataField_append,
    dataField_append]
  simp [eq_comm]

theorem exists_row_of_op (op : BitVec 3) : ∃ row ∈ opcodeTable, row.op = op := by
  revert op
  decide

/-- No two rows of the opcode map have the same op. -/
theorem row_eq_of_op_eq : ∀ row ∈ opcodeTable, ∀ other ∈ opcodeTable, other.op = row.op → other = row := by
  decide

end Sys2Proof

open Sys2Proof

/-- Settles O18: the decoder op by op, the encoder's words, and the two round trips `decode_encode` and
`encode_decode_eq_iff`. -/
theorem decodeEncodeRoundTrip : Obligations.DecodeEncodeRoundTrip :=
  ⟨fun _ => ⟨decode_of_op0, decode_of_op1, decode_of_op2, decode_of_op3, decode_of_op4, decode_of_op5, decode_of_op6,
      decode_of_op7⟩,
    ⟨rfl, rfl, rfl, fun b => ⟨encode_feed b, encode_byte b⟩⟩, decode_encode, encode_decode_eq_iff⟩

/-- Settles O19: the row of the word's op selects it, and no other row does. -/
theorem oneTableRowSelectsEachWord : Obligations.OneTableRowSelectsEachWord := by
  intro w
  obtain ⟨row, hrow, hop⟩ := exists_row_of_op (opField w)
  refine ⟨row, hrow, (selects_iff_op_eq hrow w).mpr hop, hop.trans (op_decode w).symm, fun other hother hsel => ?_⟩
  exact row_eq_of_op_eq row hrow other hother (((selects_iff_op_eq hother w).mp hsel).trans hop.symm)
end

section
/-! SUPPORT. The illegal words and the no-op: a reserved command raises IllegalCommand and nothing else, and each command but
READ changes R, K or FAULT somewhere (30_encoding.md R43). -/

namespace Sys2Proof.Machine

theorem exec_of_isReserved {i : Instr} (h : i.isReserved = true) (s : State) : exec i s = .next s.raiseIllegalCommand := by
  cases i with
  | reserved101 low => exact exec_reserved101 low s
  | reserved110 low => exact exec_reserved110 low s
  | reserved111 low => exact exec_reserved111 low s
  | init | feed _ | step | byte _ | read => exact absurd h Bool.false_ne_true

/-- A state on which every command can show its effect: bit 15 of R is 1, K and FAULT are 0. -/
def highBitState : State := { State.reset with r := 0x8000 }

/-- What a command changes in `highBitState`, its own word changes there. -/
theorem exists_word_of_exec {i : Instr} {t : State} (h : exec i highBitState = .next t)
    (hc : t.r ≠ highBitState.r ∨ t.k ≠ highBitState.k ∨ t.fault ≠ highBitState.fault) :
    ∃ (w : CmdWord) (s t : State), opField w = i.op ∧ exec (decode w) s = .next t ∧
      (t.r ≠ s.r ∨ t.k ≠ s.k ∨ t.fault ≠ s.fault) :=
  ⟨encode i, highBitState, t, opField_append _ _, by rw [decode_encode, h], hc⟩

end Sys2Proof.Machine

open Sys2Proof Sys2Proof.Machine

/-- Settles O22: in `highBitState` INIT, FEED 0x01 and STEP change R, BYTE makes K 7, and a reserved command sets FAULT. -/
theorem illegalWordsAndTheNoOp : Obligations.IllegalWordsAndTheNoOp := by
  refine ⟨decode_isReserved_iff, fun w s h => exec_of_isReserved ((decode_isReserved_iff w).mpr h) s,
    fun s => ⟨_, exec_read s, rfl, rfl, rfl⟩, fun op hop => ?_⟩
  obtain rfl | rfl | rfl | rfl | rfl | rfl | rfl | rfl := op_cases op
  · exact exists_word_of_exec (exec_init _) (.inl (by decide))
  · exact exists_word_of_exec (exec_feed 0x01 _) (.inl (by decide))
  · exact exists_word_of_exec (exec_step _) (.inl (by decide))
  · exact exists_word_of_exec (exec_byte 0x00 _) (.inr (.inl (by decide)))
  · exact absurd rfl hop
  · exact exists_word_of_exec (exec_reserved101 0x00 _) (.inr (.inr (by decide)))
  · exact exists_word_of_exec (exec_reserved110 0x00 _) (.inr (.inr (by decide)))
  · exact exists_word_of_exec (exec_reserved111 0x00 _) (.inr (.inr (by decide)))
end

section
/-! SUPPORT. The assembler's statements: which operands are in range, and the words CHECKSUM expands to
(30_encoding.md R46, R47). -/

namespace Sys2Proof.Machine

theorem assembleStmt_of_wellFormed {stmt : AsmStmt} (h : stmt.wellFormed = true) :
    assembleStmt stmt = .ok (expandStmt stmt) := if_pos h

theorem assembleStmt_of_not_wellFormed {stmt : AsmStmt} (h : ¬ stmt.wellFormed = true) :
    assembleStmt stmt = .error .operandOutOfRange := if_neg h

theorem checksum_wellFormed_iff (bs : List Nat) : (AsmStmt.checksum bs).wellFormed = true ↔ ∀ b ∈ bs, b ≤ 255 := by
  simp [AsmStmt.wellFormed, byteWellFormed]

/-- BYTE's word from its operand as the assembler reads it. -/
theorem encode_byte_ofNat {b : Nat} (h : b ≤ 255) : encode (.byte (BitVec.ofNat 8 b)) = 0x300#11 ||| BitVec.ofNat 11 b := by
  rw [encode_byte, BitVec.setWidth_ofNat_of_le_of_lt (by decide) (by omega)]

/-- The words CHECKSUM's operands expand to, as the spec writes them. -/
theorem expandStmt_checksum {bs : List Nat} (h : ∀ b ∈ bs, b ≤ 255) :
    expandStmt (.checksum bs) = 0x000#11 :: (bs.map (fun b => 0x300#11 ||| BitVec.ofNat 11 b) ++ [0x400#11]) := by
  have hbytes : (bs.map (BitVec.ofNat 8)).map (fun b => encode (.byte b)) =
      bs.map (fun b => 0x300#11 ||| BitVec.ofNat 11 b) := by
    rw [List.map_map]
    exact List.map_congr_left fun b hb => encode_byte_ofNat (h b hb)
  rw [expandStmt, checksumWords, hbytes]
  rfl

end Sys2Proof.Machine

open Sys2Proof Sys2Proof.Machine

/-- Settles O24: CHECKSUM is well formed exactly with every operand at most 255, and `expandStmt_checksum` gives its words. -/
theorem checksumPseudoInstruction : Obligations.ChecksumPseudoInstruction := by
  refine fun bs => ⟨fun h => ⟨_, ?_, rfl, by simp⟩, fun ⟨b, hb, hlt⟩ => ?_⟩
  · rw [assembleStmt_of_wellFormed ((checksum_wellFormed_iff bs).mpr h), expandStmt_checksum h]
  · refine assembleStmt_of_not_wellFormed fun h => ?_
    exact Nat.not_le_of_lt hlt ((checksum_wellFormed_iff bs).mp h b hb)
end

section
/-! SUPPORT. The assembler on a printed form: hex digits read back as the numbers they print, and a line of a mnemonic, a
blank and a number is the mnemonic's statement with that operand (30_encoding.md R46, R50). -/

namespace Sys2Proof.Machine

/-- A character of a printed mnemonic or number: no blank, no comma, and no comment's beginning. -/
def isPlain (c : Char) : Bool := !isBlank c && c != ',' && c != ';'

theorem isBlank_of_isPlain {c : Char} (h : isPlain c = true) : isBlank c = false := by
  simp only [isPlain, Bool.and_eq_true] at h
  simpa using h.1.1

theorem ne_comma_of_isPlain {c : Char} (h : isPlain c = true) : c ≠ ',' := by
  rintro rfl
  exact absurd h (by decide)

theorem ne_semicolon_of_isPlain {c : Char} (h : isPlain c = true) : c ≠ ';' := by
  rintro rfl
  exact absurd h (by decide)

/-! ### Hex digits -/

theorem hexDigit_spelled (d : BitVec 4) :
    ['0', '1', '2', '3', '4', '5', '6', '7', '8', '9', 'A', 'B', 'C', 'D', 'E', 'F'][d.toNat]? = some (hexDigit d) := by
  revert d
  decide

theorem isPlain_hexDigit (d : BitVec 4) : isPlain (hexDigit d) = true := by
  revert d
  decide

theorem isPlain_zero_x : isPlain '0' = true ∧ isPlain 'x' = true := by decide

theorem digitValue_hexDigit (d : BitVec 4) : digitValue (hexDigit d) = some d.toNat := by
  revert d
  decide

theorem readDigits_hexDigit (acc : Nat) (d : BitVec 4) (cs : List Char) :
    readDigits 16 acc (hexDigit d :: cs) = readDigits 16 (acc * 16 + d.toNat) cs := by
  simp [readDigits, digitValue_hexDigit, d.isLt]

theorem readDigits_hexByte (acc : Nat) (b : Byte) : readDigits 16 acc (hexByte b) = some (acc * 256 + b.toNat) := by
  have hb : b.toNat < 256 := b.isLt
  rw [hexByte, readDigits_hexDigit, readDigits_hexDigit, readDigits, BitVec.extractLsb'_toNat, BitVec.extractLsb'_toNat,
    Nat.shiftRight_eq_div_pow, Nat.shiftRight_zero]
  congr 1
  omega

/-- A word prints as its op's digit and its data byte's two. -/
theorem hexWord_eq (w : CmdWord) : hexWord w = hexDigit ((opField w).setWidth 4) :: hexByte (dataField w) := by
  rw [hexWord, hexByte, dataField, BitVec.extractLsb'_extractLsb'_of_le (by decide),
    BitVec.extractLsb'_extractLsb'_of_le (by decide)]

theorem readNumber_hexByte (b : Byte) : readNumber ('0' :: 'x' :: hexByte b) = some b.toNat :=
  calc readNumber ('0' :: 'x' :: hexByte b) = readDigits 16 0 (hexByte b) := rfl
    _ = some b.toNat := by rw [readDigits_hexByte, Nat.zero_mul, Nat.zero_add]

theorem readNumber_hexWord (w : CmdWord) : readNumber ('0' :: 'x' :: hexWord w) = some w.toNat := by
  have hop : ((opField w).setWidth 4).toNat = (opField w).toNat := BitVec.toNat_setWidth_of_le (by decide)
  have hw : w.toNat = 256 * (opField w).toNat + (dataField w).toNat := by
    rw [← toNat_append, opField_append_dataField]
  calc readNumber ('0' :: 'x' :: hexWord w) = readDigits 16 0 (hexWord w) := rfl
    _ = some ((0 * 16 + (opField w).toNat) * 256 + (dataField w).toNat) := by
      rw [hexWord_eq, readDigits_hexDigit, readDigits_hexByte, hop]
    _ = some w.toNat := by rw [hw, Nat.zero_mul, Nat.zero_add, Nat.mul_comm]

theorem ne_nil_of_readNumber {cs : List Char} {n : Nat} (h : readNumber cs = some n) : cs ≠ [] := by
  rintro rfl
  exact absurd h (by simp [readNumber])

theorem isPlain_of_mem_hexByte {b : Byte} : ∀ c ∈ '0' :: 'x' :: hexByte b, isPlain c = true := by
  simp [hexByte, isPlain_hexDigit, isPlain_zero_x]

theorem isPlain_of_mem_hexWord {w : CmdWord} : ∀ c ∈ '0' :: 'x' :: hexWord w, isPlain c = true := by
  simp [hexWord, isPlain_hexDigit, isPlain_zero_x]

/-! ### Lines -/

/-- A text without blanks at its ends is not trimmed. -/
theorem trim_eq_self {cs : List Char} (hne : cs ≠ []) (hh : isBlank (cs.head hne) = false)
    (hl : isBlank (cs.getLast hne) = false) : trim cs = cs := by
  have hfront : cs.dropWhile isBlank = cs :=
    List.dropWhile_eq_self_iff.mpr fun _ => by rw [← List.head_eq_getElem hne, hh]; exact Bool.false_ne_true
  rw [trim, hfront]
  exact List.rdropWhile_eq_self_iff.mpr fun _ => by rw [hl]; exact Bool.false_ne_true

theorem trim_of_isPlain {cs : List Char} (hne : cs ≠ []) (h : ∀ c ∈ cs, isPlain c = true) : trim cs = cs :=
  trim_eq_self hne (isBlank_of_isPlain (h _ (List.head_mem hne))) (isBlank_of_isPlain (h _ (List.getLast_mem hne)))

theorem trim_blank_cons (cs : List Char) : trim (' ' :: cs) = trim cs := rfl

theorem splitAtChar_of_not_mem {sep : Char} {cs : List Char} (h : sep ∉ cs) : splitAtChar sep cs = [cs] := by
  induction cs with
  | nil => rfl
  | cons c cs ih =>
    obtain ⟨hc, hcs⟩ : sep ≠ c ∧ sep ∉ cs := by simpa using h
    simp [splitAtChar, ih hcs, Ne.symm hc]

section
variable {name operand : List Char} {n : Nat} {stmt : AsmStmt}
variable (hop : ∀ c ∈ operand, isPlain c = true) (hnum : readNumber operand = some n)
include hop hnum

/-- One number after a blank is the operand list of that number. -/
theorem readOperands_of_readNumber : readOperands (' ' :: operand) = .ok [n] := by
  cases operand with
  | nil => exact absurd rfl (ne_nil_of_readNumber hnum)
  | cons c cs =>
    have htrim : trim (c :: cs) = c :: cs := trim_of_isPlain (List.cons_ne_nil c cs) hop
    have hsplit : splitAtChar ',' (c :: cs) = [c :: cs] :=
      splitAtChar_of_not_mem fun hc => ne_comma_of_isPlain (hop _ hc) rfl
    simp only [readOperands, trim_blank_cons, htrim, hsplit, readNumbers, hnum]

variable (hne : name ≠ []) (hname : ∀ c ∈ name, isPlain c = true)
variable (hstmt : makeStmt (name.map Char.toUpper) [n] = .ok stmt)
include hne hname hstmt

/-- A line of a mnemonic, a blank and a number is the mnemonic's statement with that operand. -/
theorem parseLine_of_operand : parseLine (name ++ ' ' :: operand) = .ok (some stmt) := by
  have hop_ne : operand ≠ [] := ne_nil_of_readNumber hnum
  have hcomment : (name ++ ' ' :: operand).takeWhile (fun c => c != ';') = name ++ ' ' :: operand := by
    refine List.takeWhile_eq_self_iff.mpr fun c hc => bne_iff_ne.mpr ?_
    obtain hc | rfl | hc : c ∈ name ∨ c = ' ' ∨ c ∈ operand := by simpa using hc
    · exact ne_semicolon_of_isPlain (hname c hc)
    · decide
    · exact ne_semicolon_of_isPlain (hop c hc)
  have htrim : trim (name ++ ' ' :: operand) = name ++ ' ' :: operand := by
    refine trim_eq_self (by simp) ?_ ?_
    · rw [List.head_append_of_ne_nil hne]
      exact isBlank_of_isPlain (hname _ (List.head_mem hne))
    · rw [List.getLast_append_of_ne_nil _ (List.cons_ne_nil _ _), List.getLast_cons hop_ne]
      exact isBlank_of_isPlain (hop _ (List.getLast_mem hop_ne))
  have hnonblank : ∀ c ∈ name, (!isBlank c) = true := fun c hc => by rw [isBlank_of_isPlain (hname c hc)]; rfl
  have hmnemonic : (name ++ ' ' :: operand).takeWhile (fun c => !isBlank c) = name := by
    rw [List.takeWhile_append_of_pos hnonblank, List.takeWhile_cons_of_neg (by decide), List.append_nil]
  have hrest : (name ++ ' ' :: operand).dropWhile (fun c => !isBlank c) = ' ' :: operand := by
    rw [List.dropWhile_append_of_pos hnonblank, List.dropWhile_cons_of_neg (by decide)]
  simp [parseLine, hcomment, htrim, hmnemonic, hrest, readOperands_of_readNumber hop hnum, hstmt, hne]

/-- A line of a mnemonic, a blank and a number assembles to the words of that statement. -/
theorem assembleLine_of_operand : assembleLine (name ++ ' ' :: operand) = assembleStmt stmt := by
  rw [assembleLine, parseLine_of_operand hop hnum hne hname hstmt]

end

/-! ### Printed forms -/

theorem makeStmt_feed (n : Nat) : makeStmt (['F', 'E', 'E', 'D'].map Char.toUpper) [n] = .ok (.feed n) := by
  simp [makeStmt, oneOperand]

theorem makeStmt_byte (n : Nat) : makeStmt (['B', 'Y', 'T', 'E'].map Char.toUpper) [n] = .ok (.byte n) := by
  simp [makeStmt, oneOperand]

theorem makeStmt_word (n : Nat) : makeStmt (['.', 'w', 'o', 'r', 'd'].map Char.toUpper) [n] = .ok (.word n) := by
  simp [makeStmt, oneOperand]

theorem byteWellFormed_toNat (b : Byte) : byteWellFormed b.toNat = true :=
  decide_eq_true (Nat.le_of_lt_succ b.isLt)

theorem assembleStmt_feed (b : Byte) : assembleStmt (.feed b.toNat) = .ok [encode (.feed b)] := by
  rw [assembleStmt_of_wellFormed (stmt := .feed b.toNat) (byteWellFormed_toNat b), expandStmt, BitVec.ofNat_toNat,
    BitVec.setWidth_eq]

theorem assembleStmt_byte (b : Byte) : assembleStmt (.byte b.toNat) = .ok [encode (.byte b)] := by
  rw [assembleStmt_of_wellFormed (stmt := .byte b.toNat) (byteWellFormed_toNat b), expandStmt, BitVec.ofNat_toNat,
    BitVec.setWidth_eq]

theorem assembleStmt_word (w : CmdWord) : assembleStmt (.word w.toNat) = .ok [w] := by
  have hwf : (AsmStmt.word w.toNat).wellFormed = true := decide_eq_true (Nat.le_of_lt_succ w.isLt)
  rw [assembleStmt_of_wellFormed hwf, expandStmt, BitVec.ofNat_toNat, BitVec.setWidth_eq]

theorem assembleLine_feed (b : Byte) :
    assembleLine (['F', 'E', 'E', 'D', ' ', '0', 'x'] ++ hexByte b) = .ok [encode (.feed b)] :=
  (assembleLine_of_operand (name := ['F', 'E', 'E', 'D']) isPlain_of_mem_hexByte (readNumber_hexByte b)
    (List.cons_ne_nil _ _) (List.all_eq_true.mp rfl) (makeStmt_feed _)).trans (assembleStmt_feed b)

theorem assembleLine_byte (b : Byte) :
    assembleLine (['B', 'Y', 'T', 'E', ' ', '0', 'x'] ++ hexByte b) = .ok [encode (.byte b)] :=
  (assembleLine_of_operand (name := ['B', 'Y', 'T', 'E']) isPlain_of_mem_hexByte (readNumber_hexByte b)
    (List.cons_ne_nil _ _) (List.all_eq_true.mp rfl) (makeStmt_byte _)).trans (assembleStmt_byte b)

theorem assembleLine_word (w : CmdWord) :
    assembleLine (['.', 'w', 'o', 'r', 'd', ' ', '0', 'x'] ++ hexWord w) = .ok [w] :=
  (assembleLine_of_operand (name := ['.', 'w', 'o', 'r', 'd']) isPlain_of_mem_hexWord (readNumber_hexWord w)
    (List.cons_ne_nil _ _) (List.all_eq_true.mp rfl) (makeStmt_word _)).trans (assembleStmt_word w)

theorem assembleLine_init : assembleLine ['I', 'N', 'I', 'T'] = .ok [encode .init] := by decide +kernel

theorem assembleLine_step : assembleLine ['S', 'T', 'E', 'P'] = .ok [encode .step] := by decide +kernel

theorem assembleLine_read : assembleLine ['R', 'E', 'A', 'D'] = .ok [encode .read] := by decide +kernel

section
variable {w : CmdWord}

theorem disassemble_of_op0 (h : opField w = 0) : disassemble w = ['I', 'N', 'I', 'T'] := by
  rw [disassemble, decode_of_op0 h]

theorem disassemble_of_op1 (h : opField w = 1) :
    disassemble w = ['F', 'E', 'E', 'D', ' ', '0', 'x'] ++ hexByte (dataField w) := by
  rw [disassemble, decode_of_op1 h]

theorem disassemble_of_op2 (h : opField w = 2) : disassemble w = ['S', 'T', 'E', 'P'] := by
  rw [disassemble, decode_of_op2 h]

theorem disassemble_of_op3 (h : opField w = 3) :
    disassemble w = ['B', 'Y', 'T', 'E', ' ', '0', 'x'] ++ hexByte (dataField w) := by
  rw [disassemble, decode_of_op3 h]

theorem disassemble_of_op4 (h : opField w = 4) : disassemble w = ['R', 'E', 'A', 'D'] := by
  rw [disassemble, decode_of_op4 h]

/-- A reserved word prints as the raw word. -/
theorem disassemble_of_five_le (h : 5 ≤ (opField w).toNat) :
    disassemble w = ['.', 'w', 'o', 'r', 'd', ' ', '0', 'x'] ++ hexWord w := by
  have hr : (decode w).isReserved = true := (isReserved_decode w).trans (decide_eq_true h)
  rw [disassemble]
  cases hi : decode w with
  | reserved101 | reserved110 | reserved111 => rfl
  | init | feed | step | byte | read => simp [hi, Instr.isReserved] at hr

end

/-- A word's printed form assembles to its decoded command's word. -/
theorem assembleLine_disassemble (w : CmdWord) : assembleLine (disassemble w) = .ok [encode (decode w)] := by
  obtain h | h | h | h | h | hreserved := op_cases (opField w)
  · rw [disassemble_of_op0 h, decode_of_op0 h, assembleLine_init]
  · rw [disassemble_of_op1 h, decode_of_op1 h, assembleLine_feed]
  · rw [disassemble_of_op2 h, decode_of_op2 h, assembleLine_step]
  · rw [disassemble_of_op3 h, decode_of_op3 h, assembleLine_byte]
  · rw [disassemble_of_op4 h, decode_of_op4 h, assembleLine_read]
  · have hr : 5 ≤ (opField w).toNat := by
      obtain h | h | h := hreserved <;> rw [h] <;> decide
    rw [disassemble_of_five_le hr, assembleLine_word, encode_decode_of_five_le hr]

end Sys2Proof.Machine

open Sys2Proof Sys2Proof.Machine

/-- Settles O23: the printed forms op by op, the hex digits' table, and `assembleLine_disassemble` with O18's condition. -/
theorem printedFormAssemblesBack : Obligations.PrintedFormAssemblesBack := by
  refine ⟨fun w => ⟨disassemble_of_op0, disassemble_of_op2, disassemble_of_op4, disassemble_of_op1, disassemble_of_op3,
    disassemble_of_five_le⟩, hexDigit_spelled, fun w => ⟨assembleLine_disassemble w, ?_⟩⟩
  rw [assembleLine_disassemble, ← encode_decode_eq_iff, Except.ok.injEq, List.singleton_inj]
end

section
/-! SUPPORT. The commands one by one: the word each is written as, and what it does to the state
(40_commands.md R52 to R58, R60). -/

namespace Sys2Proof

/-- A word written as its op's word or a data byte has that op. -/
theorem opField_or (op : BitVec 3) (d : Byte) : opField ((op ++ 0#8 : CmdWord) ||| d.setWidth 11) = op := by
  rw [← append_eq_or, opField_append]

theorem decode_or_init (d : Byte) : decode (0x000#11 ||| d.setWidth 11) = .init := decode_of_op0 (opField_or 0 d)

theorem decode_or_feed (b : Byte) : decode (0x100#11 ||| b.setWidth 11) = .feed b := by
  rw [← encode_feed, decode_encode]

theorem decode_or_step (d : Byte) : decode (0x200#11 ||| d.setWidth 11) = .step := decode_of_op2 (opField_or 2 d)

theorem decode_or_byte (b : Byte) : decode (0x300#11 ||| b.setWidth 11) = .byte b := by
  rw [← encode_byte, decode_encode]

theorem decode_or_read (d : Byte) : decode (0x400#11 ||| d.setWidth 11) = .read := decode_of_op4 (opField_or 4 d)

end Sys2Proof

namespace Sys2Proof.Machine

theorem highByte_loadByte (b : Byte) (v : Reg) : highByte (loadByte b v) = highByte v ^^^ b := by
  rw [← joinBytes_highByte_lowByte v, loadByte_joinBytes, highByte_joinBytes, highByte_joinBytes]

/-- Loading a byte twice restores the register (R53). -/
theorem loadByte_loadByte (b : Byte) (v : Reg) : loadByte b (loadByte b v) = v := by
  rw [loadByte, loadByte, BitVec.xor_assoc, BitVec.xor_self, BitVec.xor_zero]

theorem State.writeR_writeR (u v : Reg) (s : State) : (s.writeR v).writeR u = s.writeR u := rfl

theorem State.writeR_self (s : State) : s.writeR s.r = s := rfl

theorem State.emit_emit (u v : Byte) (s : State) : (s.emit v).emit u = { s with out := s.out ++ [v, u] } := by
  rw [State.emit, State.emit, List.append_assoc, List.cons_append, List.nil_append]

/-- READ changes no byte that READ shows. -/
theorem State.emit_pecO (v : Byte) (s : State) : (s.emit v).pecO = s.pecO := rfl

theorem State.pecO_of_r_zero {s : State} (h : s.r = 0) : s.pecO = 0 := by
  rw [State.pecO, h]
  rfl

theorem exec_feed_feed (b : Byte) (s : State) : exec (.feed b) (s.writeR (loadByte b s.r)) = .next s := by
  rw [exec_feed, State.writeR_r, loadByte_loadByte, State.writeR_writeR, State.writeR_self]

/-- Words of one op have one effect, unless the op reads its data byte (R60). -/
theorem exec_decode_congr {w1 w2 : CmdWord} (ho : opField w1 = opField w2) (hfeed : opField w1 ≠ 1)
    (hbyte : opField w1 ≠ 3) (s : State) : exec (decode w1) s = exec (decode w2) s := by
  obtain h | h | h | h | h | hreserved := op_cases (opField w1)
  · rw [decode_of_op0 h, decode_of_op0 (ho ▸ h)]
  · exact absurd h hfeed
  · rw [decode_of_op2 h, decode_of_op2 (ho ▸ h)]
  · exact absurd h hbyte
  · rw [decode_of_op4 h, decode_of_op4 (ho ▸ h)]
  · have hr : (decode w1).isReserved = true := by
      rw [isReserved_decode]
      obtain h | h | h := hreserved <;> rw [h] <;> rfl
    have hr' : (decode w2).isReserved = true := by rw [isReserved_decode, ← ho, ← isReserved_decode, hr]
    rw [exec_of_isReserved hr, exec_of_isReserved hr']

end Sys2Proof.Machine

open Sys2Proof Sys2Proof.Machine

/-- Settles O5: INIT's words and its one write. -/
theorem initClearsWorkingRegister : Obligations.InitClearsWorkingRegister :=
  fun d s => ⟨decode_or_init d, exec_init s⟩

/-- Settles O6: FEED's load acts on the high byte alone and undoes itself. -/
theorem feedXorsByteIntoHighByte : Obligations.FeedXorsByteIntoHighByte :=
  fun b s => ⟨decode_or_feed b, s.writeR (loadByte b s.r), exec_feed b s, rfl, highByte_loadByte b s.r,
    lowByte_loadByte b s.r, exec_feed_feed b s⟩

/-- Settles O7: STEP writes `divStep`, which is the test, the xor and the shift in this order. -/
theorem stepDividesOnce : Obligations.StepDividesOnce :=
  fun d s => ⟨decode_or_step d, exec_step s⟩

/-- Settles O10: READ emits `pec_o`, which it leaves as it is. -/
theorem readAppendsHighByte : Obligations.ReadAppendsHighByte := by
  refine fun d s => ⟨decode_or_read d, ⟨s.emit s.pecO, exec_read s, rfl, ?_⟩, fun hr => ?_⟩
  · rw [exec_read, State.emit_pecO, State.emit_emit]
    rfl
  · rw [exec_read, State.pecO_of_r_zero hr]
    rfl

/-- Settles O11: a reserved command raises IllegalCommand and nothing else, and a busy engine accepts no word. -/
theorem reservedCommandsSetFaultOnly : Obligations.ReservedCommandsSetFaultOnly :=
  ⟨fun low s => ⟨exec_reserved101 low s, exec_reserved110 low s, exec_reserved111 low s⟩,
    fun w s h => exec_of_isReserved ((decode_isReserved_iff w).mpr h) s,
    fun s h => acceptedWord_of_busy ((State.busy_iff s).mp h)⟩

/-- Settles O15: INIT, STEP and READ decode to one command each, and all reserved words do the same. -/
theorem dataFieldIgnored : Obligations.DataFieldIgnored :=
  fun _ _ s ho hfeed hbyte => exec_decode_congr ho hfeed hbyte s
end

section
/-! SUPPORT. BYTE on the cycle-level machine: the accepting edge and the busy edges that pay the owed division steps
(40_commands.md R56, 70_reset_and_hazards.md R98). -/

namespace Sys2Proof.Machine

/-- `t` is a state `s` that has paid `n` of the division steps it owes: R has run through them, K is `n` lower, and nothing
else of the engine or of the host's place in its stream has changed. -/
structure PaidSteps (n : Nat) (s t : State) : Prop where
  r : t.r = divSteps n s.r
  k : t.k.toNat + n = s.k.toNat
  fault : t.fault = s.fault
  out : t.out = s.out
  stream : t.stream = s.stream
  hpc : t.hpc = s.hpc
  calls : t.calls = s.calls
  resetSeen : t.resetSeen = s.resetSeen

theorem PaidSteps.refl (s : State) : PaidSteps 0 s s := ⟨rfl, rfl, rfl, rfl, rfl, rfl, rfl, rfl⟩

theorem PaidSteps.trans {m n : Nat} {s t u : State} (h : PaidSteps m s t) (h' : PaidSteps n t u) :
    PaidSteps (m + n) s u where
  r := by rw [h'.r, h.r, divSteps_add]
  k := by rw [← h.k, ← h'.k, Nat.add_assoc, Nat.add_comm m]
  fault := h'.fault.trans h.fault
  out := h'.out.trans h.out
  stream := h'.stream.trans h.stream
  hpc := h'.hpc.trans h.hpc
  calls := h'.calls.trans h.calls
  resetSeen := h'.resetSeen.trans h.resetSeen

theorem PaidSteps.of_busyEdge (offer : Bool) {s : State} (hk : s.k ≠ 0) : PaidSteps 1 s (busyEdge offer s.popEvent) :=
  ⟨rfl, busyEdge_k_toNat offer (s := s.popEvent) hk, rfl, rfl, rfl, rfl, rfl, rfl⟩

/-- Under a quiet plan every edge pays one step as long as some are owed. -/
theorem run_paidSteps {n : Nat} {s : State} (hq : s.quietPlan = true) (hn : n ≤ s.k.toNat) :
    ∃ t, run n s = .next t ∧ PaidSteps n s t := by
  induction n generalizing s with
  | zero => exact ⟨s, rfl, .refl s⟩
  | succ n ih =>
    have hk : s.k ≠ 0 := by
      intro h
      simp [h] at hn
    obtain ⟨offer, hstep⟩ := step_busy hq hk
    have hpaid := PaidSteps.of_busyEdge offer hk
    obtain ⟨t, ht, hrest⟩ := ih (step_quietPlan hq hstep) (by have := hpaid.k; omega)
    exact ⟨t, by rw [run_succ_of_step n hstep, ht], Nat.add_comm 1 n ▸ hpaid.trans hrest⟩

theorem acceptEdge_of_exec {w : CmdWord} {s u : State} (hr : s.resetSeen = true) (h : exec (decode w) s = .next u) :
    acceptEdge w s = .next u.advance := by
  simp only [acceptEdge, hr, h, if_true]

/-- After a reset, the edge that accepts a command's word runs the command, and the host advances. -/
theorem step_of_acceptedWord {s u : State} {w : CmdWord} (hr : s.resetSeen = true) (hw : s.acceptedWord = some w)
    (h : exec (decode w) s.popEvent = .next u) : step s = .next u.advance :=
  (step_accept hw).trans (acceptEdge_of_exec hr h)

/-- The state after the edge that accepts BYTE `b`: one division step done and seven owed. -/
def State.acceptByte (b : Byte) (s : State) : State :=
  ((s.popEvent.writeR (divStep (loadByte b s.r))).writeK 7).advance

theorem step_acceptByte {b : Byte} {s : State} (hr : s.resetSeen = true) (hw : s.acceptedWord = some (encode (.byte b))) :
    step s = .next (s.acceptByte b) :=
  step_of_acceptedWord hr hw (by rw [decode_encode, exec_byte]; rfl)

/-- The edge that accepts BYTE, and `n` more: `n` of the seven owed steps are paid. -/
theorem run_byte {b : Byte} {s : State} (hr : s.resetSeen = true) (hq : s.quietPlan = true)
    (hw : s.acceptedWord = some (encode (.byte b))) {n : Nat} (hn : n ≤ 7) :
    ∃ t, run (n + 1) s = .next t ∧ PaidSteps n (s.acceptByte b) t := by
  have hstep := step_acceptByte hr hw
  rw [run_succ_of_step n hstep]
  exact run_paidSteps (step_quietPlan hq hstep) hn

/-- All seven owed steps paid: BYTE is done and the engine is ready. -/
theorem PaidSteps.byte_k_eq_zero {b : Byte} {s t : State} (h : PaidSteps 7 (s.acceptByte b) t) : t.k = 0 :=
  BitVec.eq_of_toNat_eq (Nat.add_right_cancel (m := 7) h.k)

/-- All seven owed steps paid: the whole BYTE of the transaction level (R56). -/
theorem PaidSteps.byte_transaction_eq {b : Byte} {s t : State} (h : PaidSteps 7 (s.acceptByte b) t) :
    t.transaction = s.transaction.exec (.byte b) := by
  rw [State.transaction, h.r, h.fault, h.out]
  rfl

end Sys2Proof.Machine

open Sys2Proof Sys2Proof.Machine

/-- Settles O9: the accepting edge does the first of the eight steps, and `run_byte` counts the seven busy edges. -/
theorem byteRunsEightDivisionSteps : Obligations.ByteRunsEightDivisionSteps := by
  intro b s hr hq hw
  rw [← encode_byte] at hw ⊢
  refine ⟨decode_encode _, ?_, fun j hj hj7 => ?_⟩
  · obtain ⟨t, ht, hpaid⟩ := run_byte hr hq hw (le_refl 7)
    exact ⟨t, ht, hpaid.r, hpaid.byte_k_eq_zero, hpaid.fault, hpaid.out, hpaid.hpc, hpaid.stream⟩
  · obtain ⟨n, rfl⟩ := Nat.exists_eq_add_of_le' hj
    obtain ⟨u, hu, hpaid⟩ := run_byte hr hq hw (n := n) (by omega)
    have hk : u.k.toNat + n = 7 := hpaid.k
    refine ⟨u, hu, by omega, (State.busy_iff u).mpr fun h0 => ?_⟩
    rw [h0] at hk
    simp at hk
    omega
end

section
/-! SUPPORT. A host that never pauses presents one-cycle commands: every edge runs one, as the transaction-level machine does;
and DRAIN (30_encoding.md R48, 40_commands.md R59). -/

namespace Sys2Proof.Machine

/-- The command takes one cycle: it is not BYTE. -/
def takesOneCycle (i : Instr) : Prop := ∀ b, i ≠ .byte b

/-- A one-cycle command does its whole work at its accepting edge. -/
theorem exec_of_takesOneCycle {i : Instr} (hi : takesOneCycle i) (s : State) :
    ∃ u, exec i s = .next u ∧ u.transaction = s.transaction.exec i ∧ u.k = s.k ∧ u.hpc = s.hpc ∧ u.stream = s.stream ∧
      u.plan = s.plan ∧ u.resetSeen = s.resetSeen := by
  cases i with
  | byte b => exact absurd rfl (hi b)
  | init | feed | step | read | reserved101 | reserved110 | reserved111 =>
    exact ⟨_, rfl, rfl, rfl, rfl, rfl, rfl, rfl⟩

/-- A ready engine accepts the word at the index of a host that does not pause. -/
theorem acceptedWord_of_plan_nil {s : State} {w : CmdWord} (hk : s.k = 0) (hp : s.plan = [])
    (hw : s.stream[s.hpc]? = some w) : s.acceptedWord = some w :=
  acceptedWord_of_presented (State.nextEvent_nil hp) hk (State.presented_eq_some.mpr ⟨.inl rfl, hw⟩)

theorem runEnded_iff (s : State) : s.runEnded = true ↔ s.hpc = s.stream.length ∧ s.k = 0 := by
  simp [State.runEnded]

/-- A stream of one-cycle commands from a host that does not pause takes one edge per word and ends as on the transaction
level. -/
theorem run_oneCycleWords {ws : List CmdWord} (hws : ∀ w ∈ ws, takesOneCycle (decode w)) {s : State}
    (hr : s.resetSeen = true) (hk : s.k = 0) (hp : s.plan = []) (hle : s.hpc ≤ s.stream.length)
    (hdrop : s.stream.drop s.hpc = ws) :
    ∃ t, run ws.length s = .next t ∧ t.runEnded = true ∧ t.transaction = Transaction.run ws s.transaction := by
  induction ws generalizing s with
  | nil =>
    have hend : s.hpc = s.stream.length := Nat.le_antisymm hle (List.drop_eq_nil_iff.mp hdrop)
    exact ⟨s, rfl, (runEnded_iff s).mpr ⟨hend, hk⟩, rfl⟩
  | cons w ws ih =>
    obtain ⟨hw, hws⟩ := List.forall_mem_cons.mp hws
    have hget : s.stream[s.hpc]? = some w := by rw [← List.head?_drop, hdrop, List.head?_cons]
    have hlt : s.hpc < s.stream.length := (List.getElem?_eq_some_iff.mp hget).1
    obtain ⟨u, hu, htrans, huk, huhpc, hustream, huplan, hureset⟩ := exec_of_takesOneCycle hw s.popEvent
    have hstep := step_of_acceptedWord hr (acceptedWord_of_plan_nil hk hp hget) hu
    have hdrop' : u.advance.stream.drop u.advance.hpc = ws := by
      simp [hustream, huhpc, ← List.tail_drop, hdrop]
    obtain ⟨t, ht, hended, htt⟩ := ih hws (s := u.advance) (hureset.trans hr) (huk.trans hk) (by simp [huplan, hp])
      (by simpa [hustream, huhpc] using hlt) hdrop'
    refine ⟨t, by rw [List.length_cons, run_succ_of_step _ hstep, ht], hended, ?_⟩
    rw [htt, Transaction.run_cons]
    exact congrArg _ htrans

theorem length_feed_drain (b : Byte) : (encode (.feed b) :: drainWords).length = 9 := by
  rw [List.length_cons, drainWords, List.length_replicate]

/-- `n` STEP words divide `n` times. -/
theorem Transaction.run_replicate_step (n : Nat) (t : Transaction) :
    Transaction.run (List.replicate n (encode .step)) t = { t with r := divSteps n t.r } := by
  induction n generalizing t with
  | zero => rfl
  | succ n ih =>
    rw [List.replicate_succ, Transaction.run_cons, decode_encode, ih]
    rfl

/-- BYTE b is FEED b and then DRAIN (R59). -/
theorem Transaction.run_feed_drain (b : Byte) (t : Transaction) :
    Transaction.run (encode (.feed b) :: drainWords) t = t.exec (.byte b) := by
  rw [Transaction.run_cons, decode_encode, drainWords, Transaction.run_replicate_step]
  rfl

theorem takesOneCycle_of_mem_feed_drain {b : Byte} : ∀ w ∈ encode (.feed b) :: drainWords, takesOneCycle (decode w) := by
  intro w hw
  obtain rfl | hw := List.mem_cons.mp hw
  · rw [decode_encode]
    exact fun _ h => Instr.noConfusion h
  · rw [List.eq_of_mem_replicate hw, decode_encode]
    exact fun _ h => Instr.noConfusion h

end Sys2Proof.Machine

open Sys2Proof Sys2Proof.Machine

/-- Settles O14: both ends are the transaction-level BYTE of the same start. -/
theorem byteEqualsFeedThenDrain : Obligations.ByteEqualsFeedThenDrain := by
  refine ⟨rfl, fun b s hr hk hp => ?_⟩
  obtain ⟨t, ht, hpaid⟩ := run_byte (s := { s with stream := [encode (.byte b)], hpc := 0 }) hr (quietPlan_of_nil hp)
    (acceptedWord_of_plan_nil hk hp rfl) (le_refl 7)
  obtain ⟨u, hu, hended, htrans⟩ := run_oneCycleWords (s := { s with stream := encode (.feed b) :: drainWords, hpc := 0 })
    takesOneCycle_of_mem_feed_drain hr hk hp (Nat.zero_le _) rfl
  rw [length_feed_drain] at hu
  have heq : t.transaction = u.transaction :=
    calc t.transaction = s.transaction.exec (.byte b) := hpaid.byte_transaction_eq
      _ = Transaction.run (encode (.feed b) :: drainWords) s.transaction := (Transaction.run_feed_drain b _).symm
      _ = u.transaction := htrans.symm
  obtain ⟨hreg, hfault, hout⟩ := Transaction.mk.inj heq
  have htended : t.runEnded = true := (runEnded_iff t).mpr ⟨by rw [hpaid.hpc, hpaid.stream]; rfl, hpaid.byte_k_eq_zero⟩
  exact ⟨t, u, ht, hu, htended, hended, hreg, hfault, hout⟩
end

section
/-! SUPPORT. The division step as shift and xor, at 16 bits and wider: the shift moves no 1 out of bit 15
(41_checksum.md R67 to R71). -/

namespace Sys2Proof.Machine

/-- What the division step shifts: the register, with the XOR constant in it where bit 15 was 1 (R54). -/
def beforeShift (v : Reg) : Reg := if v.getLsbD 15 then v ^^^ Config.poly else v

theorem divStep_eq_shift (v : Reg) : divStep v = beforeShift v <<< 1 := rfl

/-- The XOR clears bit 15 where it was 1 (R68). -/
theorem getLsbD_beforeShift (v : Reg) : (beforeShift v).getLsbD 15 = false := by
  have hp : Config.poly.getLsbD 15 = true := rfl
  cases h : v.getLsbD 15
  · rw [beforeShift, h, if_neg Bool.false_ne_true, h]
  · rw [beforeShift, if_pos h, BitVec.getLsbD_xor, h, hp, Bool.xor_self]

theorem toNat_shiftLeft_one {v : Reg} (h : v.getLsbD 15 = false) : (v <<< 1).toNat = 2 * v.toNat := by
  have hlt : 2 * v.toNat < 2 ^ 16 := BitVec.msb_eq_false_iff_two_mul_lt.mp ((BitVec.msb_eq_getLsbD_last v).trans h)
  rw [BitVec.toNat_shiftLeft, Nat.shiftLeft_eq, Nat.mul_comm]
  exact Nat.mod_eq_of_lt hlt

theorem poly_shiftLeft_one : Config.poly <<< 1 = 0x0700 := by decide

/-- The XOR after the shift (R67). -/
theorem divStep_eq_shift_xor (v : Reg) :
    divStep v = (v <<< 1) ^^^ (if v.getLsbD 15 then 0x0700 else 0x0000) := by
  cases h : v.getLsbD 15
  · exact (divStep_of_not_topBit h).trans BitVec.xor_zero.symm
  · rw [divStep_of_topBit h, BitVec.shiftLeft_xor_distrib, poly_shiftLeft_one, if_pos rfl]

section
variable {n : Nat} (hn : 16 ≤ n)
include hn

/-- Widening commutes with the shift of a value whose bit 15 is 0. -/
theorem setWidth_shiftLeft_one {v : Reg} (h : v.getLsbD 15 = false) :
    (v <<< 1).setWidth n = v.setWidth n <<< 1 := by
  apply BitVec.eq_of_toNat_eq
  have hlt : v.toNat < 2 ^ n := v.isLt.trans_le (Nat.pow_le_pow_right (by decide) hn)
  rw [BitVec.toNat_setWidth, toNat_shiftLeft_one h, BitVec.toNat_shiftLeft, BitVec.toNat_setWidth,
    Nat.mod_eq_of_lt hlt, Nat.shiftLeft_eq, Nat.mul_comm]

/-- The unmasked step on a widened register is the widened step (R69). -/
theorem wideStep_setWidth (v : Reg) : wideStep n (v.setWidth n) = (divStep v).setWidth n := by
  have hbit : (v.setWidth n).getLsbD 15 = v.getLsbD 15 := by
    rw [BitVec.getLsbD_setWidth, decide_eq_true (by omega), Bool.true_and]
  rw [divStep_eq_shift, setWidth_shiftLeft_one hn (getLsbD_beforeShift v), wideStep, hbit, beforeShift]
  split
  · rw [BitVec.setWidth_xor]
  · rfl

theorem wideSteps_setWidth (m : Nat) (v : Reg) : wideSteps n m (v.setWidth n) = (divSteps m v).setWidth n := by
  induction m generalizing v with
  | zero => rfl
  | succ m ih => rw [wideSteps, wideStep_setWidth hn, ih, divSteps_succ]

/-- The load of a byte in a wider register. -/
theorem setWidth_widen (b : Byte) : (widen b).setWidth n = b.setWidth n <<< 8 := by
  apply BitVec.eq_of_getLsbD_eq
  intro i hi
  rw [widen, BitVec.getLsbD_setWidth, BitVec.getLsbD_shiftLeft, BitVec.getLsbD_shiftLeft, BitVec.getLsbD_setWidth,
    BitVec.getLsbD_setWidth]
  by_cases h : i < 16
  · simp [h, hi, show i - 8 < 16 by omega, show i - 8 < n by omega]
  · simp [h, BitVec.getLsbD_of_ge b (i - 8) (by omega)]

theorem wideSteps_xor_byte (b : Byte) (v : Reg) :
    wideSteps n 8 (v.setWidth n ^^^ (b.setWidth n <<< 8)) = (consumeByte b v).setWidth n := by
  rw [← setWidth_widen hn, ← BitVec.setWidth_xor, wideSteps_setWidth hn]
  rfl

/-- A message in a wider register (R69, R71). -/
theorem wideMessage_eq (msg : List Byte) : wideMessage n msg = (feedMessage msg 0).setWidth n := by
  have h0 : (0 : BitVec n) = (0 : Reg).setWidth n := BitVec.setWidth_zero n 16 |>.symm
  rw [wideMessage, h0, feedMessage]
  exact List.foldl_hom (BitVec.setWidth n) fun v b => wideSteps_xor_byte hn b v

/-- Bits 15:8 of a widened register are its high byte. -/
theorem extractLsb'_setWidth (v : Reg) : (v.setWidth n).extractLsb' 8 8 = highByte v := by
  apply BitVec.eq_of_getLsbD_eq
  intro i hi
  rw [getLsbD_highByte v hi, BitVec.getLsbD_extractLsb', BitVec.getLsbD_setWidth, decide_eq_true hi,
    decide_eq_true (by omega : 8 + i < n), Bool.true_and, Bool.true_and]

end

end Sys2Proof.Machine

open Sys2Proof Sys2Proof.Machine

/-- Settles O43: the shift distributes over the XOR, and the constant shifted is 0x0700. -/
theorem divisionStepIsShiftThenXor : Obligations.DivisionStepIsShiftThenXor := divStep_eq_shift_xor

/-- Settles O44: the XOR has cleared bit 15 before the shift. -/
theorem divisionStepLosesNoBit : Obligations.DivisionStepLosesNoBit :=
  fun v => ⟨getLsbD_beforeShift v, toNat_shiftLeft_one (getLsbD_beforeShift v)⟩

/-- Settles O45: no step moves a 1 above bit 15, so widening commutes with every step, load and message. -/
theorem widerRegisterHoldsSameValue : Obligations.WiderRegisterHoldsSameValue := by
  intro n msg hn
  rw [wideMessage_eq hn]
  exact ⟨rfl, extractLsb'_setWidth hn _⟩
end

section
/-! SUPPORT. The checksum as a function of the message: the 8-bit form, linearity, and the transaction-level machine over the
words of a message (41_checksum.md R63 to R76). -/

namespace Sys2Proof.Machine

/-- A whole byte on `{c, 0x00}` (R70). -/
theorem consumeByte_joinBytes (b c : Byte) : consumeByte b (joinBytes c 0) = joinBytes (narrowByte b c) 0 := by
  rw [consumeByte, loadByte_joinBytes, divSteps_joinBytes]
  rfl

theorem joinBytes_zero : joinBytes 0 0 = 0 := rfl

theorem crc8_nil : crc8 [] = 0 := rfl

theorem crc8_eq_narrow_fold (msg : List Byte) : crc8 msg = msg.foldl (fun c b => narrowByte b c) 0 := by
  have hfold : feedMessage msg (joinBytes 0 0) = joinBytes (msg.foldl (fun c b => narrowByte b c) 0) 0 :=
    List.foldl_hom (fun c => joinBytes c 0) fun c b => consumeByte_joinBytes b c
  rw [crc8, ← joinBytes_zero, hfold, highByte_joinBytes]

/-- One more byte runs through the 8-bit form from the checksum so far. -/
theorem crc8_concat (msg : List Byte) (b : Byte) : crc8 (msg ++ [b]) = narrowByte b (crc8 msg) := by
  simp only [crc8_eq_narrow_fold, List.foldl_concat]

/-- From the residue of `a` the bytes of `b` continue the message (R72). -/
theorem feedMessage_crc8 (a b : List Byte) : feedMessage b (joinBytes (crc8 a) 0) = joinBytes (crc8 (a ++ b)) 0 := by
  rw [← feedMessage_zero, ← feedMessage_zero, feedMessage_append]

/-- A byte equal to the high byte of `{c, 0x00}` clears the register (R74). -/
theorem consumeByte_self (c : Byte) : consumeByte c (joinBytes c 0) = 0 := by
  rw [consumeByte, loadByte_joinBytes, BitVec.xor_self]
  exact divSteps_zero _

theorem crc8_singleton (b : Byte) : crc8 [b] = highByte (consumeByte b 0) := rfl

theorem consumeByte_zero : consumeByte 0 0 = 0 := consumeByte_self 0

/-! ### Linearity -/

theorem highByte_xor (u v : Reg) : highByte (u ^^^ v) = highByte u ^^^ highByte v := BitVec.extractLsb'_xor

/-- Messages of one length, and the values they start from, add up byte by byte (R73). -/
theorem feedMessage_zipWith_xor {a b : List Byte} (h : a.length = b.length) (u v : Reg) :
    feedMessage (List.zipWith (fun x y => x ^^^ y) a b) (u ^^^ v) = feedMessage a u ^^^ feedMessage b v := by
  induction a generalizing b u v with
  | nil =>
    rw [List.length_eq_zero_iff.mp h.symm]
    rfl
  | cons x a ih =>
    cases b with
    | nil => exact absurd h (Nat.succ_ne_zero _)
    | cons y b => exact (congrArg _ (consumeByte_xor x y u v)).trans (ih (Nat.succ.inj h) _ _)

theorem crc8_zipWith_xor {a b : List Byte} (h : a.length = b.length) :
    crc8 (List.zipWith (fun x y => x ^^^ y) a b) = crc8 a ^^^ crc8 b := by
  rw [crc8, crc8, crc8, ← highByte_xor, ← feedMessage_zipWith_xor h]
  rfl

theorem crc8_replicate_zero (n : Nat) : crc8 (List.replicate n 0) = 0 := by
  induction n with
  | zero => exact crc8_nil
  | succ n ih =>
    rw [crc8, List.replicate_succ, feedMessage, List.foldl_cons, consumeByte_zero]
    exact ih

/-! ### The transaction-level machine over a message -/

theorem Transaction.run_bytes (msg : List Byte) (t : Transaction) :
    Transaction.run (msg.map fun b => encode (.byte b)) t = { t with r := feedMessage msg t.r } := by
  induction msg generalizing t with
  | nil => rfl
  | cons b msg ih =>
    rw [List.map_cons, Transaction.run_cons, decode_encode, ih]
    rfl

theorem Transaction.run_init_cons (ws : List CmdWord) (t : Transaction) :
    Transaction.run (encode .init :: ws) t = Transaction.run ws { t with r := 0 } := by
  rw [Transaction.run_cons, decode_encode]
  rfl

/-- The BYTEs of a message and a READ: the register runs through the message, and OUT gains its high byte. -/
theorem Transaction.run_bytes_read (msg : List Byte) (t : Transaction) :
    Transaction.run ((msg.map fun b => encode (.byte b)) ++ [encode .read]) t =
      { t with r := feedMessage msg t.r, out := t.out ++ [highByte (feedMessage msg t.r)] } := by
  rw [Transaction.run_append, Transaction.run_bytes, Transaction.run_cons, decode_encode]
  rfl

/-- CHECKSUM of a message, from any state (R64). -/
theorem Transaction.run_checksumWords (msg : List Byte) (t : Transaction) :
    Transaction.run (checksumWords msg) t = { t with r := joinBytes (crc8 msg) 0, out := t.out ++ [crc8 msg] } := by
  rw [checksumWords, Transaction.run_init_cons, Transaction.run_bytes_read, feedMessage_zero, highByte_joinBytes]

/-- BYTEs and a READ with no INIT, from the residue of `a` (R65). -/
theorem Transaction.run_continue {a : List Byte} {t : Transaction} (h : t.r = joinBytes (crc8 a) 0) (b : List Byte) :
    Transaction.run ((b.map fun x => encode (.byte x)) ++ [encode .read]) t =
      { t with r := joinBytes (crc8 (a ++ b)) 0, out := t.out ++ [crc8 (a ++ b)] } := by
  rw [Transaction.run_bytes_read, h, feedMessage_crc8, highByte_joinBytes]

end Sys2Proof.Machine

open Sys2Proof Sys2Proof.Machine

/-- Settles O46: on a zero low byte the sixteen-bit steps are the 8-bit loop, and the load is an XOR into the high byte. -/
theorem eightBitForm : Obligations.EightBitForm := by
  refine fun b c => ⟨?_, consumeByte_joinBytes b c⟩
  rw [divSteps_joinBytes, highByte_joinBytes]
  exact consumeByte_joinBytes b c

/-- Settles O47: INIT starts the register at 0, and a message's register is its checksum over a zero low byte. -/
theorem readEmitsPrefixChecksum : Obligations.ReadEmitsPrefixChecksum := by
  refine fun a b t => ⟨?_, congrArg Transaction.out (Transaction.run_checksumWords a t), fun h => ?_⟩
  · rw [Transaction.run_init_cons, Transaction.run_bytes]
    exact feedMessage_zero a
  · rw [Transaction.run_bytes, h]
    exact feedMessage_crc8 a b

/-- Settles O48: every byte's load and steps are linear over GF(2). -/
theorem checksumIsLinear : Obligations.ChecksumIsLinear := ⟨fun _ _ => crc8_zipWith_xor, crc8_replicate_zero⟩

/-- Settles O49: the check byte's load clears the register, and division steps keep 0. -/
theorem checkByteGivesZero : Obligations.CheckByteGivesZero := by
  intro msg
  rw [crc8, feedMessage_append, feedMessage_zero]
  exact congrArg highByte (consumeByte_self (crc8 msg))

/-- Settles O51: a one-byte message is one load and eight steps from 0. -/
theorem emptyAndSingleByteChecksums : Obligations.EmptyAndSingleByteChecksums :=
  ⟨crc8_nil, crc8_singleton, congrArg highByte consumeByte_zero⟩
end

section
/-! SUPPORT. A run of the cycle-level machine with nothing ahead but its stream: every step keeps what the transaction level
will have seen at the end, and some run ends, however the host paces it (41_checksum.md R64, R65). -/

namespace Sys2Proof.Machine

/-- What the transaction level sees once the owed division steps are paid. -/
def State.settled (s : State) : Transaction := ⟨divSteps s.k.toNat s.r, s.fault, s.out⟩

/-- What the transaction level sees once the rest of the stream has run as well. -/
def State.outcome (s : State) : Transaction := Transaction.run (s.stream.drop s.hpc) s.settled

/-- A bound on the edges up to the end of the run: one for each planned event, eight for each word, and the owed steps. -/
def State.edgesLeft (s : State) : Nat := s.plan.length + 8 * (s.stream.length - s.hpc) + s.k.toNat

theorem State.settled_of_ready {s : State} (hk : s.k = 0) : s.settled = s.transaction := by
  rw [State.settled, hk]
  rfl

/-- At the end of a run nothing is left to do. -/
theorem State.outcome_of_runEnded {s : State} (h : s.runEnded = true) : s.outcome = s.transaction := by
  obtain ⟨hend, hk⟩ := (runEnded_iff s).mp h
  rw [State.outcome, hend, List.drop_length, State.settled_of_ready hk]
  rfl

/-- A ready engine's accepting edge leaves the whole command done, or owed (R98). -/
theorem exec_settles (i : Instr) {s : State} (hk : s.k = 0) :
    ∃ u, exec i s = .next u ∧ u.settled = s.settled.exec i ∧ u.stream = s.stream ∧ u.hpc = s.hpc ∧ u.calls = s.calls ∧
      u.plan = s.plan ∧ u.resetSeen = s.resetSeen := by
  rw [State.settled_of_ready hk]
  cases i with
  | byte b => exact ⟨_, rfl, rfl, rfl, rfl, rfl, rfl, rfl⟩
  | init | feed | step | read | reserved101 | reserved110 | reserved111 =>
    exact ⟨_, rfl, State.settled_of_ready hk, rfl, rfl, rfl, rfl, rfl⟩

/-- The engine has been reset, and nothing lies ahead but its stream: no reset, no power loss and no call. -/
structure StreamOnly (s : State) : Prop where
  resetSeen : s.resetSeen = true
  quiet : s.quietPlan = true
  calls : s.calls = []
  hpc_le : s.hpc ≤ s.stream.length

/-- The step of such a state: it keeps the outcome, and before the end it uses up one of the edges left. -/
structure StreamStep (s t : State) : Prop where
  step : step s = .next t
  streamOnly : StreamOnly t
  outcome : t.outcome = s.outcome
  edgesLeft : s.runEnded = false → t.edgesLeft < s.edgesLeft

theorem plan_tail_length_le (s : State) : s.plan.tail.length ≤ s.plan.length := by
  rw [List.length_tail]
  exact Nat.sub_le _ 1

section
variable {s : State} (h : StreamOnly s)
include h

/-- A busy edge pays an owed step. -/
theorem StreamOnly.busy_step (hk : s.k ≠ 0) : ∃ t, StreamStep s t := by
  obtain ⟨offer, hstep⟩ := step_busy h.quiet hk
  have hpaid := PaidSteps.of_busyEdge offer hk
  have hsettled : (busyEdge offer s.popEvent).settled = s.settled := by
    rw [State.settled, State.settled, hpaid.fault, hpaid.out, ← hpaid.k, Nat.add_comm, divSteps_add, hpaid.r]
  refine ⟨_, hstep, ⟨h.resetSeen, step_quietPlan h.quiet hstep, h.calls, h.hpc_le⟩, ?_, fun _ => ?_⟩
  · rw [State.outcome, hsettled, hpaid.stream, hpaid.hpc]
    rfl
  · have hk' := hpaid.k
    have hplan := plan_tail_length_le s
    rw [State.edgesLeft, State.edgesLeft, hpaid.stream, hpaid.hpc, step_plan hstep]
    omega

/-- An accepting edge moves one word from the stream to the engine. -/
theorem StreamOnly.accept_step {w : CmdWord} (hw : s.acceptedWord = some w) : ∃ t, StreamStep s t := by
  obtain ⟨offer, -, hk, hpres⟩ := acceptedWord_cases hw
  obtain ⟨u, hu, hsettled, hstream, hhpc, hcalls, -, hreset⟩ := exec_settles (decode w) (s := s.popEvent) hk
  have hstep := step_of_acceptedWord h.resetSeen hw hu
  have hlt := State.lt_length_of_presented hpres
  have hget : s.stream[s.hpc] = w := (List.getElem?_eq_some_iff.mp (State.presented_eq_some.mp hpres).2).2
  have hdrop : s.stream.drop s.hpc = w :: s.stream.drop (s.hpc + 1) := hget ▸ List.drop_eq_getElem_cons hlt
  refine ⟨_, hstep, ⟨hreset.trans h.resetSeen, step_quietPlan h.quiet hstep, hcalls.trans h.calls, ?_⟩, ?_, fun _ => ?_⟩
  · rw [State.advance_hpc, State.advance_stream, hhpc, hstream]
    exact hlt
  · calc u.advance.outcome = Transaction.run (s.stream.drop (s.hpc + 1)) u.settled := by
          rw [State.outcome, State.advance_hpc, State.advance_stream, hhpc, hstream]
          rfl
      _ = s.outcome := by
          rw [hsettled, State.outcome, hdrop, Transaction.run_cons]
          rfl
  · have hplan := plan_tail_length_le s
    have hk8 : u.k.toNat < 8 := u.k.isLt
    rw [State.edgesLeft, State.edgesLeft, step_plan hstep, State.advance_hpc, State.advance_stream, State.advance_k, hhpc,
      hstream]
    simp only [State.popEvent_stream, State.popEvent_hpc]
    omega

/-- A ready engine that accepts nothing stays as it is: the host pauses, or the run has ended. -/
theorem StreamOnly.idle_step (hk : s.k = 0) (hw : s.acceptedWord = none) : ∃ t, StreamStep s t := by
  obtain ⟨offer, he⟩ := nextEvent_of_quietPlan h.quiet
  have hpres : s.presented offer = none := by
    cases hp : s.presented offer with
    | none => rfl
    | some w => exact absurd (hw.symm.trans (acceptedWord_of_presented he hk hp)) (Option.some_ne_none w).symm
  have hidle : idleEdge offer s.popEvent = .next s.popEvent := by simp [idleEdge, h.calls]
  have hstep : step s = .next s.popEvent := by rw [step_edge he, clockEdge_idle (s := s.popEvent) hk hpres, hidle]
  refine ⟨_, hstep, ⟨h.resetSeen, step_quietPlan h.quiet hstep, h.calls, h.hpc_le⟩, rfl, fun hrun => ?_⟩
  have hplan : s.plan ≠ [] := by
    intro hp
    have hnone : s.stream[s.hpc]? = none :=
      Option.eq_none_iff_forall_ne_some.mpr fun w hget =>
        Option.some_ne_none w ((acceptedWord_of_plan_nil hk hp hget).symm.trans hw)
    have hend : s.hpc = s.stream.length := Nat.le_antisymm h.hpc_le (List.getElem?_eq_none_iff.mp hnone)
    exact absurd (hrun.symm.trans ((runEnded_iff s).mpr ⟨hend, hk⟩)) Bool.false_ne_true
  have hpos := List.length_pos_iff.mpr hplan
  simp only [State.edgesLeft, State.popEvent_plan, State.popEvent_stream, State.popEvent_hpc, State.popEvent_k,
    List.length_tail]
  omega

theorem StreamOnly.step : ∃ t, StreamStep s t := by
  by_cases hk : s.k = 0
  · cases hw : s.acceptedWord with
    | none => exact h.idle_step hk hw
    | some w => exact h.accept_step hw
  · exact h.busy_step hk

/-- Every run keeps the outcome. -/
theorem StreamOnly.run_outcome {n : Nat} {t : State} (ht : run n s = .next t) : t.outcome = s.outcome := by
  refine (run_keeps (P := fun u => StreamOnly u ∧ u.outcome = s.outcome) (fun u v hu huv => ?_) ⟨h, rfl⟩ ht).2
  obtain ⟨v', hv'⟩ := hu.1.step
  obtain rfl := Host.Outcome.next.inj (huv.symm.trans hv'.step)
  exact ⟨hv'.streamOnly, hv'.outcome.trans hu.2⟩

end

/-- Some run ends. -/
theorem StreamOnly.exists_run_ended {s : State} (h : StreamOnly s) : ∃ n t, run n s = .next t ∧ t.runEnded = true := by
  induction hm : s.edgesLeft using Nat.strong_induction_on generalizing s with
  | _ m ih =>
    cases hrun : s.runEnded with
    | true => exact ⟨0, s, rfl, hrun⟩
    | false =>
      obtain ⟨u, hu⟩ := h.step
      obtain ⟨n, t, ht, hended⟩ := ih _ (hm ▸ hu.edgesLeft hrun) hu.streamOnly rfl
      exact ⟨n + 1, t, by rw [run_succ_of_step n hu.step, ht], hended⟩

/-- At every end of a run from a ready engine the transaction level has run the whole stream. -/
theorem StreamOnly.transaction_of_runEnded {s t : State} {n : Nat} (h : StreamOnly s) (hk : s.k = 0)
    (ht : run n s = .next t) (hended : t.runEnded = true) :
    t.transaction = Transaction.run (s.stream.drop s.hpc) s.transaction :=
  calc t.transaction = t.outcome := (State.outcome_of_runEnded hended).symm
    _ = s.outcome := h.run_outcome ht
    _ = Transaction.run (s.stream.drop s.hpc) s.transaction := by rw [State.outcome, State.settled_of_ready hk]

/-- A host with words left is within its stream. -/
theorem StreamOnly.of_drop_ne_nil {s : State} (hr : s.resetSeen = true) (hq : s.quietPlan = true) (hc : s.calls = [])
    (hdrop : s.stream.drop s.hpc ≠ []) : StreamOnly s :=
  ⟨hr, hq, hc, Nat.le_of_not_le fun hle => hdrop (List.drop_eq_nil_of_le hle)⟩

/-- The stream of R65: a message, a continuation without INIT, and another message. -/
theorem Transaction.run_independence (a b c : List Byte) (t : Transaction) :
    (Transaction.run (checksumWords a ++ ((b.map fun x => encode (.byte x)) ++ [encode .read]) ++ checksumWords c) t).out =
      t.out ++ [crc8 a, crc8 (a ++ b), crc8 c] := by
  rw [Transaction.run_append, Transaction.run_append, Transaction.run_checksumWords a, Transaction.run_continue rfl,
    Transaction.run_checksumWords c]
  simp only [List.append_assoc, List.cons_append, List.nil_append]

end Sys2Proof.Machine

open Sys2Proof Sys2Proof.Machine

/-- Settles O38: a run ends because each step before the end uses up an edge, and every end is the transaction level's, where
`Transaction.run_checksumWords` gives R, FAULT and OUT. -/
theorem checksumStreamComputesCrc8 : Obligations.ChecksumStreamComputesCrc8 := by
  intro s data length _ hr hk hf hq hc hdrop
  have hs : StreamOnly s := .of_drop_ne_nil hr hq hc (hdrop ▸ List.cons_ne_nil _ _)
  refine ⟨hs.exists_run_ended, fun n t ht hended => ?_⟩
  have heq := hs.transaction_of_runEnded hk ht hended
  rw [hdrop, Transaction.run_checksumWords] at heq
  obtain ⟨hreg, hfault, hout⟩ := Transaction.mk.inj heq
  exact ⟨hout, hreg, ((runEnded_iff t).mp hended).2, hfault.trans hf⟩

/-- Settles O42: every end is the transaction level's, where each INIT starts from 0 and BYTEs alone go on from the residue. -/
theorem initRestoresIndependence : Obligations.InitRestoresIndependence := by
  intro s a b c n t hr hk hq hc hdrop ht hended
  have hs : StreamOnly s := .of_drop_ne_nil hr hq hc (hdrop ▸ List.cons_ne_nil _ _)
  have heq := hs.transaction_of_runEnded hk ht hended
  rw [hdrop] at heq
  exact (congrArg Transaction.out heq).trans (Transaction.run_independence a b c s.transaction)
end

section
/-! SUPPORT. Bits as polynomials over GF(2): the 8-bit form computes in the quotient by x^8 + x^2 + x + 1
(41_checksum.md R78). -/

open Polynomial

namespace Sys2Proof.Machine

/-- The polynomial of a list of bits, the highest coefficient first, as R78 reads a message. -/
noncomputable def bitsPoly (bits : List Bool) : (ZMod 2)[X] := bits.foldl (fun p bit => p * X + (if bit then 1 else 0)) 0

/-- The generator g(x) of R78. -/
noncomputable def generator : (ZMod 2)[X] := X ^ 8 + X ^ 2 + X + 1

theorem generator_monic : generator.Monic := by
  unfold generator
  monicity!

theorem degree_generator : generator.degree = 8 := by
  unfold generator
  compute_degree!

theorem bitsPoly_nil : bitsPoly [] = 0 := rfl

theorem bitsPoly_concat (bits : List Bool) (bit : Bool) :
    bitsPoly (bits ++ [bit]) = bitsPoly bits * X + (if bit then 1 else 0) :=
  List.foldl_concat _ _ _ _

theorem bitsPoly_append (as bs : List Bool) : bitsPoly (as ++ bs) = bitsPoly as * X ^ bs.length + bitsPoly bs := by
  induction bs using List.reverseRecOn with
  | nil => simp [bitsPoly_nil]
  | append_singleton bs bit ih =>
    rw [← List.append_assoc, bitsPoly_concat, bitsPoly_concat, ih, List.length_append, List.length_singleton]
    ring

theorem bitsPoly_cons (bit : Bool) (bits : List Bool) :
    bitsPoly (bit :: bits) = (if bit then X ^ bits.length else 0) + bitsPoly bits := by
  rw [← List.singleton_append, bitsPoly_append]
  cases bit <;> simp [bitsPoly]

theorem degree_bitsPoly_lt (bits : List Bool) : (bitsPoly bits).degree < bits.length := by
  induction bits with
  | nil => simp [bitsPoly_nil]
  | cons bit bits ih =>
    have hlt : (bits.length : WithBot ℕ) < (bit :: bits).length := Nat.cast_lt.mpr (Nat.lt_succ_self _)
    rw [bitsPoly_cons]
    refine (degree_add_le _ _).trans_lt (max_lt ?_ (ih.trans hlt))
    cases bit
    · simp
    · rwa [if_pos rfl, degree_X_pow]

/-- XOR of bits is addition of coefficients. -/
theorem bitsPoly_zipWith_xor {as bs : List Bool} (h : as.length = bs.length) :
    bitsPoly (List.zipWith xor as bs) = bitsPoly as + bitsPoly bs := by
  induction as generalizing bs with
  | nil => simp [List.length_eq_zero_iff.mp h.symm, bitsPoly_nil]
  | cons a as ih =>
    cases bs with
    | nil => exact absurd h (Nat.succ_ne_zero _)
    | cons b bs =>
      have hlen : as.length = bs.length := Nat.succ.inj h
      have hbit : (if xor a b then X ^ bs.length else 0 : (ZMod 2)[X]) =
          (if a then X ^ bs.length else 0) + (if b then X ^ bs.length else 0) := by
        cases a <;> cases b <;> simp [CharTwo.add_self_eq_zero]
      rw [List.zipWith_cons_cons, bitsPoly_cons, bitsPoly_cons, bitsPoly_cons, ih hlen, List.length_zipWith, hlen, min_self,
        hbit]
      ring

/-! ### Bytes -/

theorem length_byteBits (b : Byte) : (byteBits b).length = 8 := rfl

theorem byteBits_xor (a b : Byte) : byteBits (a ^^^ b) = List.zipWith xor (byteBits a) (byteBits b) := by
  simp [byteBits]

theorem bitsPoly_byteBits_xor (a b : Byte) :
    bitsPoly (byteBits (a ^^^ b)) = bitsPoly (byteBits a) + bitsPoly (byteBits b) := by
  rw [byteBits_xor]
  exact bitsPoly_zipWith_xor rfl

/-- A shift moves bit 7 in front of the byte and a 0 behind it. -/
theorem byteBits_shiftLeft_one (c : Byte) : c.getLsbD 7 :: byteBits (c <<< 1) = byteBits c ++ [false] := by
  simp [byteBits]

theorem bitsPoly_byteBits_mul_X (c : Byte) :
    bitsPoly (byteBits c) * X = (if c.getLsbD 7 then X ^ 8 else 0) + bitsPoly (byteBits (c <<< 1)) := by
  have hshift : bitsPoly (byteBits c ++ [false]) = bitsPoly (c.getLsbD 7 :: byteBits (c <<< 1)) := by
    rw [byteBits_shiftLeft_one]
  rwa [bitsPoly_concat, if_neg Bool.false_ne_true, add_zero, bitsPoly_cons, length_byteBits] at hshift

/-- 0x07 is g without its highest coefficient. -/
theorem generator_eq : generator = X ^ 8 + bitsPoly (byteBits 0x07) := by
  have hbits : byteBits 0x07 = [false, false, false, false, false, true, true, true] := rfl
  simp only [generator, hbits, bitsPoly, List.foldl, Bool.false_eq_true, if_false, if_true]
  ring

/-- The 8-bit step multiplies by x, modulo g. -/
theorem mk_narrowStep (c : Byte) :
    AdjoinRoot.mk generator (bitsPoly (byteBits (narrowStep c))) = AdjoinRoot.mk generator (bitsPoly (byteBits c) * X) := by
  rw [bitsPoly_byteBits_mul_X, narrowStep]
  cases c.getLsbD 7
  · simp
  · rw [if_pos rfl, if_pos rfl, bitsPoly_byteBits_xor, AdjoinRoot.mk_eq_mk, generator_eq, CharTwo.sub_eq_add]
    exact dvd_of_eq (by linear_combination -CharTwo.add_self_eq_zero (bitsPoly (byteBits (c <<< 1))))

theorem mk_narrowSteps (n : Nat) (c : Byte) :
    AdjoinRoot.mk generator (bitsPoly (byteBits (narrowSteps n c))) =
      AdjoinRoot.mk generator (bitsPoly (byteBits c) * X ^ n) := by
  induction n generalizing c with
  | zero => rw [pow_zero, mul_one, narrowSteps]
  | succ n ih => rw [narrowSteps, ih, map_mul, mk_narrowStep, ← map_mul, mul_assoc, ← pow_succ']

theorem messageBits_concat (msg : List Byte) (b : Byte) : messageBits (msg ++ [b]) = messageBits msg ++ byteBits b := by
  simp [messageBits]

/-- Modulo g the checksum is M(x) x^8: each byte adds its bits to the residue and multiplies by x^8. -/
theorem mk_crc8 (msg : List Byte) :
    AdjoinRoot.mk generator (bitsPoly (byteBits (crc8 msg))) =
      AdjoinRoot.mk generator (bitsPoly (messageBits msg) * X ^ 8) := by
  induction msg using List.reverseRecOn with
  | nil => simp [crc8_nil, messageBits, bitsPoly, byteBits]
  | append_singleton msg b ih =>
    rw [crc8_concat, narrowByte, mk_narrowSteps, bitsPoly_byteBits_xor, messageBits_concat, bitsPoly_append, length_byteBits,
      map_mul, map_mul, map_add, map_add, ih]

end Sys2Proof.Machine

open Sys2Proof Sys2Proof.Machine

/-- Settles O53: the two sides agree modulo g, and the checksum's polynomial has a degree below g's. -/
theorem checksumIsPolynomialRemainder : Obligations.ChecksumIsPolynomialRemainder := by
  intro msg
  have hdvd := AdjoinRoot.mk_eq_mk.mp (mk_crc8 msg)
  have hdeg : (bitsPoly (byteBits (crc8 msg))).degree < generator.degree := by
    rw [degree_generator]
    exact degree_bitsPoly_lt _
  exact ((modByMonic_eq_self_iff generator_monic).mpr hdeg).symm.trans (modByMonic_eq_of_dvd_sub generator_monic hdvd)
end

section
/-! SUPPORT. IllegalCommand at the accepting edge and along a run, and the commands that never raise it
(60_exceptions.md R79, R83). -/

namespace Sys2Proof.Machine

theorem exec_answers (i : Instr) (s : State) : ∃ t, exec i s = .next t := by
  cases i <;> exact ⟨_, rfl⟩

theorem State.recordedFault_congr {s t : State} (h : t.fault = s.fault) : t.recordedFault = s.recordedFault := by
  rw [State.recordedFault, State.recordedFault, h]

theorem State.recordedFault_of_fault {s : State} (h : s.fault = true) : s.recordedFault = some .illegalCommand :=
  if_pos h

/-- No command reads FAULT: its effect with FAULT = 1 is its effect without, and FAULT stays 1. -/
theorem exec_raiseIllegalCommand {i : Instr} {s t : State} (h : exec i s = .next t) :
    exec i s.raiseIllegalCommand = .next t.raiseIllegalCommand := by
  cases i <;> cases h <;> rfl

/-- The edge that accepts a reserved word sets FAULT, and the host goes on to its next word. -/
theorem step_of_reserved_accepted {s : State} {w : CmdWord} (hr : s.resetSeen = true) (hw : s.acceptedWord = some w)
    (hres : 0x500 ≤ w.toNat) : step s = .next s.popEvent.raiseIllegalCommand.advance :=
  step_of_acceptedWord hr hw (exec_of_isReserved ((decode_isReserved_iff w).mpr hres) s.popEvent)

/-- No reset and no power loss lies ahead, and FAULT is 1. -/
structure FaultStuck (s : State) : Prop where
  quiet : s.quietPlan = true
  fault : s.fault = true

theorem FaultStuck.step {s t : State} (h : FaultStuck s) (hs : step s = .next t) : FaultStuck t := by
  obtain ⟨offer, he⟩ := nextEvent_of_quietPlan h.quiet
  have hp : s.nextEvent ≠ .powerLoss := by simp [he]
  exact ⟨step_quietPlan h.quiet hs, (step_fault_iff hs (State.rstI_edge he) hp).mpr (.inl h.fault)⟩

theorem FaultStuck.run {n : Nat} {s t : State} (h : FaultStuck s) (hs : run n s = .next t) : FaultStuck t :=
  run_keeps (fun _ _ => FaultStuck.step) h hs

end Sys2Proof.Machine

open Sys2Proof Sys2Proof.Machine

/-- Settles O13: a reserved word's edge only sets FAULT, every quiet step keeps it, no command reads it, and a reset edge
clears it. -/
theorem illegalCommandIsStickyAndHarmless : Obligations.IllegalCommandIsStickyAndHarmless := by
  refine ⟨fun s w hr hw hres => ?_, fun n s t hq hf hs => ?_, fun _ _ _ => exec_raiseIllegalCommand, fun s hrst => ?_⟩
  · have hready : s.cmdReadyO = true := (acceptedWord_eq_some.mp hw).2.2
    exact ⟨_, step_of_reserved_accepted hr hw hres, rfl, rfl, rfl, rfl, hready⟩
  · have hfault : t.fault = true := (FaultStuck.run ⟨hq, hf⟩ hs).fault
    exact ⟨hfault, hfault, State.recordedFault_of_fault hfault⟩
  · exact ⟨_, step_reset hrst, rfl⟩

/-- Settles O16: every command answers a next state, and FAULT there differs only after a reserved one. -/
theorem legalCommandsNeverFault : Obligations.LegalCommandsNeverFault := by
  intro i s hi
  obtain ⟨t, ht⟩ := exec_answers i s
  have hf : t.fault = s.fault := by rw [exec_fault ht, hi, Bool.or_false]
  exact ⟨t, ht, hf, State.recordedFault_congr hf⟩
end

section
/-! SUPPORT. The output ports, and the engine before its first reset (70_reset_and_hazards.md R95, R99). -/

namespace Sys2Proof.Machine

theorem getLsbD_pecO (s : State) {i : Nat} (hi : i < 8) : s.pecO.getLsbD i = s.r.getLsbD (8 + i) :=
  getLsbD_highByte s.r hi

theorem State.cmdReadyO_congr {s u : State} (h : s.k = u.k) : s.cmdReadyO = u.cmdReadyO := by
  rw [State.cmdReadyO, State.cmdReadyO, h]

theorem State.pecO_congr {s u : State} (h : s.r = u.r) : s.pecO = u.pecO := by
  rw [State.pecO, State.pecO, h]

/-- An accepting edge has no meaning before the first reset (R95). -/
theorem step_accept_before_reset {s : State} {w : CmdWord} (hr : s.resetSeen = false) (hw : s.acceptedWord = some w) :
    step s = .refused .commandBeforeReset := by
  rw [step_accept hw, acceptEdge, State.popEvent_resetSeen, hr, if_neg Bool.false_ne_true]

end Sys2Proof.Machine

open Sys2Proof Sys2Proof.Machine

/-- Settles O30: each port is defined from one of R, K and FAULT. -/
theorem outputPortsReadStateOnly : Obligations.OutputPortsReadStateOnly :=
  ⟨fun s => ⟨s.cmdReadyO_iff, fun _ => getLsbD_pecO s, rfl⟩,
    fun _ _ hr hk hf => ⟨State.cmdReadyO_congr hk, State.pecO_congr hr, hf⟩⟩

/-- Settles O3: the power-on state is built from the draws, an accepting edge tests for a reset first, and a reset edge
always answers. -/
theorem commandBeforeResetRefused : Obligations.CommandBeforeResetRefused :=
  ⟨⟨rfl, rfl, rfl, rfl, State.powerOn.cmdReadyO_iff, rfl⟩, fun _ _ => step_accept_before_reset,
    fun s h => ⟨_, step_reset h, s.popEvent.resetEdge_resetSeen⟩⟩
end

section
/-! SUPPORT. One edge of the cycle-level machine, case by case (70_reset_and_hazards.md R98). -/

namespace Sys2Proof.Machine

section
variable {s : State} {offer : Bool} {w : CmdWord}

theorem step_of_busy (he : s.nextEvent = .edge false offer) (hk : s.k ≠ 0) :
    step s = .next (busyEdge offer s.popEvent) := by
  rw [step_edge he]
  exact clockEdge_busy offer hk

/-- A ready engine accepts the word its host presents. -/
theorem acceptedWord_of_cmdI (hrst : s.rstI = false) (hk : s.k = 0) (hw : s.cmdI = some w) : s.acceptedWord = some w :=
  acceptedWord_eq_some.mpr ⟨hrst, hw, s.cmdReadyO_iff.mpr hk⟩

/-- A ready engine with no word presented: the host idles or makes its next call. -/
theorem step_of_idle (he : s.nextEvent = .edge false offer) (hk : s.k = 0) (hw : s.cmdI = none) :
    step s = idleEdge offer s.popEvent := by
  rw [step_edge he]
  exact clockEdge_idle hk ((State.cmdI_edge he).symm.trans hw)

/-- What a word's command is says what the word does. -/
theorem exec_decode_eq {i : Instr} {t u : State} (hu : exec (decode w) s = .next u) (hi : decode w = i)
    (ht : exec i s = .next t) : u = t :=
  Host.Outcome.next.inj (hu.symm.trans (hi ▸ ht))

/-- With no call to make an idle edge does nothing. -/
theorem idleEdge_of_calls_nil (offer : Bool) (h : s.calls = []) : idleEdge offer s = .next s := by
  simp [idleEdge, h]

end

/-- An idle edge changes nothing of the engine, and OUT neither. -/
theorem idleEdge_engine {offer : Bool} {s t : State} (h : idleEdge offer s = .next t) :
    t.r = s.r ∧ t.k = s.k ∧ t.fault = s.fault ∧ t.out = s.out := by
  obtain rfl | ⟨c, rest, msg, -, -, -, -, rfl⟩ := idleEdge_next h <;> exact ⟨rfl, rfl, rfl, rfl⟩

end Sys2Proof.Machine

open Sys2Proof Sys2Proof.Machine

/-- Settles O25: one case per branch of `clockEdge`, and in the accepting one a case per op of the word. -/
theorem edgeFollowsCycleMachine : Obligations.EdgeFollowsCycleMachine := by
  intro s rst offer hr he
  have hrst : s.rstI = rst := State.rstI_edge he
  refine ⟨fun h => ⟨_, step_reset (hrst.trans h), rfl, rfl, rfl, rfl⟩, ?_, ?_, ?_⟩
  · rintro rfl hk
    have hpaid := PaidSteps.of_busyEdge offer hk
    exact ⟨_, step_of_busy he hk, hpaid.r, hpaid.k, hpaid.fault, hpaid.out⟩
  · rintro rfl hk w hw
    obtain ⟨u, hu⟩ := exec_answers (decode w) s.popEvent
    refine ⟨u.advance, step_of_acceptedWord hr (acceptedWord_of_cmdI hrst hk hw) hu, fun ho => ?_, fun ho => ?_,
      fun ho => ?_, fun ho => ?_, fun ho => ?_, fun ho => ?_⟩
    · obtain rfl := exec_decode_eq hu (decode_of_op0 ho) (exec_init _)
      exact ⟨rfl, hk, rfl, rfl⟩
    · obtain rfl := exec_decode_eq hu (decode_of_op1 ho) (exec_feed _ _)
      exact ⟨rfl, hk, rfl, rfl⟩
    · obtain rfl := exec_decode_eq hu (decode_of_op2 ho) (exec_step _)
      exact ⟨rfl, hk, rfl, rfl⟩
    · obtain rfl := exec_decode_eq hu (decode_of_op3 ho) (exec_byte _ _)
      exact ⟨rfl, rfl, rfl, rfl⟩
    · obtain rfl := exec_decode_eq hu (decode_of_op4 ho) (exec_read _)
      exact ⟨rfl, hk, rfl, rfl⟩
    · obtain rfl := exec_decode_eq hu rfl (exec_of_isReserved ((isReserved_decode w).trans (decide_eq_true ho)) _)
      exact ⟨rfl, hk, rfl, rfl⟩
  · rintro rfl hk hw
    rw [step_of_idle he hk hw]
    refine ⟨fun t ht => ?_, fun hc => ⟨_, idleEdge_of_calls_nil offer (s := s.popEvent) hc⟩⟩
    obtain ⟨hreg, hkt, hfault, hout⟩ := idleEdge_engine ht
    exact ⟨hreg, hkt.trans hk, hfault, hout⟩
end

section
/-! SUPPORT. The handshake: what an edge does to the host's index, and the hold of a presented word
(70_reset_and_hazards.md R100, R102). -/

namespace Sys2Proof.Machine

theorem exec_hpc {i : Instr} {s t : State} (h : exec i s = .next t) : t.hpc = s.hpc := by
  cases i <;> cases h <;> rfl

/-- The edge that accepts a word moves the host to its next one. -/
theorem step_hpc_of_accepted {s t : State} {w : CmdWord} (h : step s = .next t) (hw : s.acceptedWord = some w) :
    t.hpc = s.hpc + 1 := by
  rw [step_accept hw] at h
  obtain ⟨-, u, hu, rfl⟩ := acceptEdge_next h
  rw [State.advance_hpc, exec_hpc hu, State.popEvent_hpc]

/-- Every other step leaves the host where it is. -/
theorem step_hpc_of_not_accepted {s t : State} (h : step s = .next t) (hw : s.acceptedWord = none) : t.hpc = s.hpc := by
  obtain ⟨-, rfl⟩ | ⟨_, -, rfl⟩ | ⟨_, -, -, rfl⟩ | ⟨offer, w, u, he, hk, hpres, -⟩ |
    ⟨_, -, -, -, rfl | ⟨_, _, _, -, -, -, -, rfl⟩⟩ := step_cases h
  case inr.inr.inr.inl => exact absurd (hw.symm.trans (acceptedWord_of_presented he hk hpres)) (Option.some_ne_none w).symm
  all_goals rfl

/-- The host's index advances exactly at accepting edges (R18). -/
theorem step_hpc_iff {s t : State} (h : step s = .next t) : t.hpc = s.hpc + 1 ↔ s.acceptedWord.isSome = true := by
  cases hw : s.acceptedWord with
  | none => simp [step_hpc_of_not_accepted h hw]
  | some w => simp [step_hpc_of_accepted h hw]

/-- Two outcomes are next states that agree on R, K, FAULT, OUT and hpc. -/
def SameEngineNext (o p : Host.Outcome State Fault Refusal) : Prop :=
  ∃ t u, o = .next t ∧ p = .next u ∧ t.r = u.r ∧ t.k = u.k ∧ t.fault = u.fault ∧ t.out = u.out ∧ t.hpc = u.hpc

/-- A reset edge discards what the host offers (R94). -/
theorem clockEdge_reset_ignores_offer (s : State) : SameEngineNext (clockEdge true true s) (clockEdge true false s) :=
  ⟨_, _, clockEdge_reset true s, clockEdge_reset false s, rfl, rfl, rfl, rfl, rfl⟩

/-- A busy edge owes its division step whatever the host offers. -/
theorem clockEdge_busy_ignores_offer {s : State} (h : s.k ≠ 0) :
    SameEngineNext (clockEdge false true s) (clockEdge false false s) :=
  ⟨_, _, clockEdge_busy true h, clockEdge_busy false h, rfl, rfl, rfl, rfl, rfl⟩

/-- A word presented at a busy edge is presented at the next edge, whatever the plan then offers. -/
theorem busyEdge_presented {s : State} {offer : Bool} {w : CmdWord} (h : s.presented offer = some w) (offer' : Bool) :
    (busyEdge offer s).presented offer' = some w := by
  have hhold : (busyEdge offer s).holding = true := Option.isSome_of_eq_some h
  exact State.presented_eq_some.mpr ⟨.inr hhold, (State.presented_eq_some.mp h).2⟩

/-- A presented word that an edge without reset does not accept has met a busy engine. -/
theorem busy_of_not_accepted {s : State} {w : CmdWord} (hrst : s.rstI = false) (hw : s.cmdI = some w)
    (hn : s.acceptedWord = none) : s.k ≠ 0 :=
  fun hk => Option.some_ne_none w ((acceptedWord_of_cmdI hrst hk hw).symm.trans hn)

/-- The hold of R102: the next edge finds the word on the port again. -/
theorem step_holds_word {s t : State} {w : CmdWord} (h : step s = .next t) (hrst : s.rstI = false) (hw : s.cmdI = some w)
    (hn : s.acceptedWord = none) (hp : t.nextEvent ≠ .powerLoss) : t.cmdI = some w := by
  have hk := busy_of_not_accepted hrst hw hn
  cases he : s.nextEvent with
  | powerLoss => exact absurd ((State.cmdI_powerLoss he).symm.trans hw) (Option.some_ne_none w).symm
  | edge rst offer =>
    obtain rfl : rst = false := (State.rstI_edge he).symm.trans hrst
    obtain rfl := Host.Outcome.next.inj ((step_of_busy he hk).symm.trans h)
    cases he' : (busyEdge offer s.popEvent).nextEvent with
    | powerLoss => exact absurd he' hp
    | edge rst' offer' =>
      rw [State.cmdI_edge he']
      exact busyEdge_presented (s := s.popEvent) ((State.cmdI_edge he).symm.trans hw) offer'

end Sys2Proof.Machine

open Sys2Proof Sys2Proof.Machine

/-- Settles O28: acceptance is the three port levels, a reset edge and a busy edge do not look at the offer, and a word that
meets a busy engine is held. -/
theorem handshakeAcceptsAndHolds : Obligations.HandshakeAcceptsAndHolds := by
  refine ⟨fun _ _ => acceptedWord_eq_some, fun s rst rest h => ?_, fun _ _ _ => step_holds_word, fun _ _ => step_hpc_iff⟩
  cases rst with
  | true => exact clockEdge_reset_ignores_offer { s with plan := rest }
  | false => exact clockEdge_busy_ignores_offer (s := { s with plan := rest }) (h.resolve_right Bool.false_ne_true)
end

section
/-! SUPPORT. The cycle-level machine refines the transaction-level machine: what a run without reset or power loss accepts, the
transaction level runs, once the owed division steps are paid (70_reset_and_hazards.md R101). -/

namespace Sys2Proof.Machine

/-- From `s` to `t` the engine has accepted the words `ws` of the host's stream, which may have grown at its end, and with the
owed division steps paid the transaction level has run `ws`. -/
structure AcceptsWords (ws : List CmdWord) (s t : State) : Prop where
  stream : s.stream <+: t.stream
  hpc : t.hpc = s.hpc + ws.length
  words : ws <+: t.stream.drop s.hpc
  settled : t.settled = Transaction.run ws s.settled

/-- Nothing is accepted where the host stays at its index and owed steps are at most paid. -/
theorem AcceptsWords.none {s t : State} (hstream : s.stream <+: t.stream) (hhpc : t.hpc = s.hpc)
    (hsettled : t.settled = s.settled) : AcceptsWords [] s t :=
  ⟨hstream, hhpc, List.nil_prefix, hsettled⟩

theorem AcceptsWords.refl (s : State) : AcceptsWords [] s s := .none (List.prefix_refl _) rfl rfl

theorem AcceptsWords.trans {ws vs : List CmdWord} {s t u : State} (h : AcceptsWords ws s t) (h' : AcceptsWords vs t u) :
    AcceptsWords (ws ++ vs) s u where
  stream := h.stream.trans h'.stream
  hpc := by rw [h'.hpc, h.hpc, List.length_append, Nat.add_assoc]
  words := by
    obtain ⟨rest, hrest⟩ := h.words.trans (h'.stream.drop s.hpc)
    have hvs := h'.words
    rw [h.hpc, ← List.drop_drop, ← hrest, List.drop_left] at hvs
    rw [← hrest]
    exact (List.prefix_append_right_inj ws).mpr hvs
  settled := by rw [h'.settled, h.settled, Transaction.run_append]

/-- The host's index and stream give back the accepted words. -/
theorem AcceptsWords.acceptedSince_eq {ws : List CmdWord} {s t : State} (h : AcceptsWords ws s t) :
    s.acceptedSince t = ws := by
  rw [State.acceptedSince, h.hpc, Nat.add_sub_cancel_left]
  exact (List.prefix_iff_eq_take.mp h.words).symm

/-- Paying owed steps changes nothing of what the transaction level will have seen. -/
theorem PaidSteps.settled {n : Nat} {s t : State} (h : PaidSteps n s t) : t.settled = s.settled := by
  rw [State.settled, State.settled, h.fault, h.out, ← h.k, Nat.add_comm, divSteps_add, h.r]

/-- An accepting edge accepts the word it says, whose whole command is then done or owed. -/
theorem acceptsWords_of_accepted {s t : State} {w : CmdWord} (h : step s = .next t) (hw : s.acceptedWord = some w) :
    AcceptsWords [w] s t := by
  obtain ⟨offer, -, hk, hpres⟩ := acceptedWord_cases hw
  rw [step_accept hw] at h
  obtain ⟨-, v, hv, rfl⟩ := acceptEdge_next h
  obtain ⟨u, hu, hsettled, hstream, hhpc, -⟩ := exec_settles (decode w) (s := s.popEvent) hk
  obtain rfl := Host.Outcome.next.inj (hv.symm.trans hu)
  obtain ⟨hlt, hget⟩ := List.getElem?_eq_some_iff.mp (State.presented_eq_some.mp hpres).2
  refine ⟨hstream ▸ List.prefix_refl _, congrArg (· + 1) hhpc, ?_, hsettled⟩
  rw [State.advance_stream, hstream, State.popEvent_stream, List.drop_eq_getElem_cons hlt, hget]
  exact List.prefix_append [w] _

/-- A step without reset or power loss accepts the word it says, or none. -/
theorem step_acceptsWords {s t : State} (hq : s.quietPlan = true) (h : step s = .next t) :
    AcceptsWords s.acceptedWord.toList s t := by
  obtain ⟨offer₀, he₀⟩ := nextEvent_of_quietPlan hq
  cases hw : s.acceptedWord with
  | some w => exact acceptsWords_of_accepted h hw
  | none =>
    obtain ⟨he, -⟩ | ⟨_, he, -⟩ | ⟨offer, -, hk, rfl⟩ | ⟨_, _, _, he, hk, hpres, -⟩ |
      ⟨_, -, -, -, rfl | ⟨_, _, _, -, -, -, -, rfl⟩⟩ := step_cases h
    · exact HostEvent.noConfusion (he₀.symm.trans he)
    · exact absurd (HostEvent.edge.inj (he₀.symm.trans he)).1 Bool.false_ne_true
    · exact .none (List.prefix_refl _) rfl (PaidSteps.of_busyEdge offer hk).settled
    · exact absurd (hw.symm.trans (acceptedWord_of_presented he hk hpres)) (Option.some_ne_none _).symm
    · exact .none (List.prefix_refl _) rfl rfl
    · exact .none (List.prefix_append _ _) rfl rfl

/-- So does every run. -/
theorem run_acceptsWords {n : Nat} {s t : State} (hq : s.quietPlan = true) (h : run n s = .next t) :
    ∃ ws, AcceptsWords ws s t := by
  induction n generalizing s with
  | zero => exact ⟨[], Host.Outcome.next.inj h ▸ .refl s⟩
  | succ n ih =>
    obtain ⟨u, hu, hn⟩ := run_succ h
    obtain ⟨ws, hws⟩ := ih (step_quietPlan hq hu) hn
    exact ⟨_, (step_acceptsWords hq hu).trans hws⟩

end Sys2Proof.Machine

open Sys2Proof Sys2Proof.Machine

/-- Settles O31: the words accepted are those between the two indices, and with K = 0 at both ends no step is owed. -/
theorem cycleMachineRefinesTransactions : Obligations.CycleMachineRefinesTransactions := by
  intro n s t hq hk h hkt
  obtain ⟨ws, hws⟩ := run_acceptsWords hq h
  rw [hws.acceptedSince_eq, ← State.settled_of_ready hk, ← State.settled_of_ready hkt]
  exact ⟨hws.hpc.symm, hws.settled⟩
end

section
/-! SUPPORT. How many cycles a command takes, how many division steps, and where it leaves the machine
(70_reset_and_hazards.md R107). -/

namespace Sys2Proof.Machine

/-- The cycles of a word's command: 8 for BYTE, 1 for every other (R107). -/
def cyclesOf (w : CmdWord) : Nat := if opField w = 3 then 8 else 1

/-- The division steps of a word's command: 8 for BYTE, 1 for STEP (R106, R107). -/
def divisionsOf (w : CmdWord) : Nat := if opField w = 3 then 8 else if opField w = 2 then 1 else 0

theorem cyclesOf_of_byte {w : CmdWord} (h : opField w = 3) : cyclesOf w = 8 := if_pos h

theorem cyclesOf_of_not_byte {w : CmdWord} (h : opField w ≠ 3) : cyclesOf w = 1 := if_neg h

/-- A word with op 011 is a BYTE of its data byte. -/
theorem eq_encode_byte {w : CmdWord} (h : opField w = 3) : w = encode (.byte (dataField w)) :=
  calc w = (opField w ++ dataField w : CmdWord) := (opField_append_dataField w).symm
    _ = encode (.byte (dataField w)) := by rw [h]; rfl

theorem takesOneCycle_decode {w : CmdWord} (h : opField w ≠ 3) : takesOneCycle (decode w) :=
  fun b hb => h (by rw [← op_decode, hb]; rfl)

/-- R after a whole command: its load, and then its division steps. -/
theorem Transaction.exec_decode_r (w : CmdWord) (t : Transaction) :
    (t.exec (decode w)).r = divSteps (divisionsOf w)
      (if opField w = 0 then 0 else if opField w = 1 ∨ opField w = 3 then loadByte (dataField w) t.r else t.r) := by
  obtain h | h | h | h | h | h | h | h := op_cases (opField w) <;> rw [divisionsOf, decode, h] <;> rfl

/-- `t` is where the whole command `w` leaves `s`: the engine is ready again, the host is one word further, and R, FAULT and
OUT are the transaction level's. -/
structure RanCommand (w : CmdWord) (s t : State) : Prop where
  k : t.k = 0
  hpc : t.hpc = s.hpc + 1
  stream : t.stream = s.stream
  resetSeen : t.resetSeen = s.resetSeen
  transaction : t.transaction = s.transaction.exec (decode w)

section
variable {s : State} {w : CmdWord} (hr : s.resetSeen = true) (hw : s.acceptedWord = some w)
include hr hw

theorem step_oneCycle (ho : opField w ≠ 3) : ∃ t, step s = .next t ∧ RanCommand w s t := by
  obtain ⟨-, -, hk, -⟩ := acceptedWord_cases hw
  obtain ⟨u, hu, htrans, huk, hhpc, hstream, -, hreset⟩ := exec_of_takesOneCycle (takesOneCycle_decode ho) s.popEvent
  exact ⟨u.advance, step_of_acceptedWord hr hw hu,
    ⟨huk.trans hk, congrArg (· + 1) hhpc, hstream, hreset, htrans⟩⟩

/-- A command runs in its cycles. -/
theorem run_command (hq : s.quietPlan = true) : ∃ t, run (cyclesOf w) s = .next t ∧ RanCommand w s t := by
  by_cases ho : opField w = 3
  · rw [eq_encode_byte ho] at hw
    obtain ⟨t, ht, hpaid⟩ := run_byte hr hq hw (le_refl 7)
    rw [cyclesOf_of_byte ho]
    exact ⟨t, ht, hpaid.byte_k_eq_zero, hpaid.hpc, hpaid.stream, hpaid.resetSeen,
      decode_of_op3 ho ▸ hpaid.byte_transaction_eq⟩
  · obtain ⟨t, ht, hran⟩ := step_oneCycle hr hw ho
    rw [cyclesOf_of_not_byte ho]
    exact ⟨t, by rw [run_succ_of_step 0 ht, run_zero], hran⟩

/-- After BYTE's accepting edge, and before its last cycle, steps are owed. -/
theorem run_byte_busy (hq : s.quietPlan = true) (ho : opField w = 3) {n : Nat} (hn : n < 7) :
    ∃ u, run (n + 1) s = .next u ∧ u.quietPlan = true ∧ u.k ≠ 0 := by
  rw [eq_encode_byte ho] at hw
  obtain ⟨u, hu, hpaid⟩ := run_byte hr hq hw (Nat.le_of_lt hn)
  have hk : u.k.toNat + n = 7 := hpaid.k
  refine ⟨u, hu, run_keeps (P := fun v => v.quietPlan = true) (fun _ _ => step_quietPlan) hq hu, fun h0 => ?_⟩
  have hk0 : u.k.toNat = 0 := congrArg BitVec.toNat h0
  omega

end

end Sys2Proof.Machine

open Sys2Proof Sys2Proof.Machine

/-- Settles O32: a command runs in its cycles and leaves the transaction level's R, and BYTE owes steps in between. -/
theorem cyclesPerCommand : Obligations.CyclesPerCommand := by
  intro s w hr hq hw
  refine ⟨?_, fun j hj hlt => ?_⟩
  · obtain ⟨t, ht, hran⟩ := run_command hr hw hq
    exact ⟨t, ht, t.cmdReadyO_iff.mpr hran.k, hran.hpc,
      (congrArg Transaction.r hran.transaction).trans (Transaction.exec_decode_r w s.transaction)⟩
  · by_cases ho : opField w = 3
    · rw [if_pos ho] at hlt
      obtain ⟨n, rfl⟩ := Nat.exists_eq_add_of_le' hj
      obtain ⟨u, hu, -, hk⟩ := run_byte_busy hr hw hq ho (n := n) (by omega)
      exact ⟨u, hu, Bool.eq_false_iff.mpr fun h => hk (u.cmdReadyO_iff.mp h)⟩
    · rw [if_neg ho] at hlt
      omega
end

section
/-! SUPPORT. A host that never pauses: the edges a list of words takes, and how many of them apply STEP
(70_reset_and_hazards.md R106, R108). -/

namespace Sys2Proof.Machine

/-! ### The edges that divide -/

/-- Whether edge `j` of the run from `s` applies STEP. -/
def dividesAt (s : State) (j : Nat) : Bool := ((nextState? (run j s)).map State.divides).getD false

/-- How many of the first `n` edges from `s` apply STEP. -/
def dividingEdges (n : Nat) (s : State) : Nat := (List.range n).countP (dividesAt s)

theorem dividesAt_of_run {j : Nat} {s u : State} (h : run j s = .next u) : dividesAt s j = u.divides := by
  rw [dividesAt, h]
  rfl

theorem dividesAt_add {m : Nat} {s u : State} (h : run m s = .next u) (j : Nat) : dividesAt s (m + j) = dividesAt u j := by
  rw [dividesAt, run_add h, dividesAt]

theorem dividingEdges_add {m : Nat} {s u : State} (h : run m s = .next u) (n : Nat) :
    dividingEdges (m + n) s = dividingEdges m s + dividingEdges n u := by
  have hshift : dividesAt s ∘ (m + ·) = dividesAt u := funext (dividesAt_add h)
  rw [dividingEdges, List.range_add, List.countP_append, List.countP_map, hshift]
  rfl

theorem dividingEdges_one (s : State) : dividingEdges 1 s = if s.divides then 1 else 0 :=
  List.countP_singleton

/-- An accepting edge divides for STEP and BYTE. -/
theorem divides_of_accepted {s : State} {w : CmdWord} (hw : s.acceptedWord = some w) :
    s.divides = (opField w == 2 || opField w == 3) := by
  obtain ⟨offer, he, -⟩ := acceptedWord_cases hw
  simp only [State.divides, he, hw]

/-- A busy edge divides. -/
theorem divides_of_busy {s : State} (hq : s.quietPlan = true) (hk : s.k ≠ 0) : s.divides = true := by
  obtain ⟨offer, he⟩ := nextEvent_of_quietPlan hq
  simp only [State.divides, he, acceptedWord_of_busy hk]
  exact s.busy_iff.mpr hk

/-- Of a command's cycles as many divide as the command has division steps. -/
theorem dividingEdges_command {s : State} {w : CmdWord} (hr : s.resetSeen = true) (hw : s.acceptedWord = some w)
    (hq : s.quietPlan = true) : dividingEdges (cyclesOf w) s = divisionsOf w := by
  by_cases ho : opField w = 3
  · have hall : ∀ j ∈ List.range 8, dividesAt s j = true := by
      intro j hj
      cases j with
      | zero => rw [dividesAt_of_run (run_zero s), divides_of_accepted hw, ho]; rfl
      | succ n =>
        obtain ⟨u, hu, huq, huk⟩ := run_byte_busy hr hw hq ho (Nat.lt_of_succ_lt_succ (List.mem_range.mp hj))
        rw [dividesAt_of_run hu, divides_of_busy huq huk]
    rw [cyclesOf_of_byte ho, divisionsOf, if_pos ho]
    exact List.countP_eq_length.mpr hall
  · rw [cyclesOf_of_not_byte ho, dividingEdges_one, divides_of_accepted hw, divisionsOf, if_neg ho,
      beq_eq_false_iff_ne.mpr ho, Bool.or_false]
    simp only [beq_iff_eq]

/-! ### Lists of words -/

/-- The cycles of a list of words. -/
def totalCycles (ws : List CmdWord) : Nat := (ws.map cyclesOf).sum

/-- The division steps of a list of words. -/
def totalDivisions (ws : List CmdWord) : Nat := (ws.map divisionsOf).sum

theorem totalCycles_append (ws vs : List CmdWord) : totalCycles (ws ++ vs) = totalCycles ws + totalCycles vs := by
  rw [totalCycles, List.map_append, List.sum_append]
  rfl

theorem totalDivisions_append (ws vs : List CmdWord) :
    totalDivisions (ws ++ vs) = totalDivisions ws + totalDivisions vs := by
  rw [totalDivisions, List.map_append, List.sum_append]
  rfl

/-- The engine has been reset and is ready, and its host presents each word as soon as it can. -/
structure Ready (s : State) : Prop where
  resetSeen : s.resetSeen = true
  k : s.k = 0
  plan : s.plan = []

theorem Ready.acceptedWord {s : State} (h : Ready s) {w : CmdWord} {ws : List CmdWord}
    (hdrop : s.stream.drop s.hpc = w :: ws) : s.acceptedWord = some w :=
  acceptedWord_of_plan_nil h.k h.plan (by rw [← List.head?_drop, hdrop, List.head?_cons])

theorem run_plan_nil {n : Nat} {s t : State} (hp : s.plan = []) (h : run n s = .next t) : t.plan = [] :=
  run_keeps (P := fun u => u.plan = []) (fun u v hu huv => by rw [step_plan huv, hu, List.tail_nil]) hp h

/-- The words `ws` next in the stream are accepted one after the other without a pause, each in its cycles; the rest of the
stream is then next. -/
theorem Ready.run_words {ws rest : List CmdWord} {s : State} (h : Ready s) (hdrop : s.stream.drop s.hpc = ws ++ rest) :
    ∃ t, run (totalCycles ws) s = .next t ∧ Ready t ∧ t.stream = s.stream ∧ t.hpc = s.hpc + ws.length ∧
      t.stream.drop t.hpc = rest ∧ dividingEdges (totalCycles ws) s = totalDivisions ws := by
  induction ws generalizing s with
  | nil => exact ⟨s, rfl, h, rfl, rfl, hdrop, rfl⟩
  | cons w ws ih =>
    have hw := h.acceptedWord hdrop
    have hq := quietPlan_of_nil h.plan
    obtain ⟨u, hu, hran⟩ := run_command h.resetSeen hw hq
    have hready : Ready u := ⟨hran.resetSeen.trans h.resetSeen, hran.k, run_plan_nil h.plan hu⟩
    have hdrop' : u.stream.drop u.hpc = ws ++ rest := by
      rw [hran.stream, hran.hpc, ← List.tail_drop, hdrop, List.cons_append, List.tail_cons]
    obtain ⟨t, ht, htready, hstream, hhpc, htdrop, hdiv⟩ := ih hready hdrop'
    rw [totalCycles, totalDivisions, List.map_cons, List.map_cons, List.sum_cons, List.sum_cons]
    refine ⟨t, by rw [run_add hu]; exact ht, htready, hstream.trans hran.stream, ?_, htdrop, ?_⟩
    · rw [hhpc, hran.hpc, List.length_cons, Nat.add_assoc, Nat.add_comm 1]
    · rw [dividingEdges_add hu, dividingEdges_command h.resetSeen hw hq]
      exact congrArg _ hdiv

theorem hpc_le_of_drop_ne_nil {s : State} (h : s.stream.drop s.hpc ≠ []) : s.hpc ≤ s.stream.length :=
  Nat.le_of_not_le fun hle => h (List.drop_eq_nil_of_le hle)

/-- With its last word done the run has ended. -/
theorem Ready.run_words_ended {ws : List CmdWord} {s : State} (h : Ready s) (hdrop : s.stream.drop s.hpc = ws)
    (hne : ws ≠ []) : ∃ t, run (totalCycles ws) s = .next t ∧ t.runEnded = true := by
  obtain ⟨t, ht, hready, hstream, hhpc, -⟩ := h.run_words (ws := ws) (rest := []) (by rw [hdrop, List.append_nil])
  have hlen : ws.length = s.stream.length - s.hpc := by rw [← hdrop, List.length_drop]
  have hle := hpc_le_of_drop_ne_nil (hdrop ▸ hne)
  exact ⟨t, ht, (runEnded_iff t).mpr ⟨by rw [hstream, hhpc, hlen, Nat.add_sub_cancel' hle], hready.k⟩⟩

/-! ### The words of a message -/

/-- The words of CHECKSUM before its READ. -/
def initBytes (msg : List Byte) : List CmdWord := encode .init :: msg.map fun b => encode (.byte b)

theorem checksumWords_eq (msg : List Byte) : checksumWords msg = initBytes msg ++ [encode .read] := rfl

theorem initBytes_append (a b : List Byte) : initBytes (a ++ b) = initBytes a ++ b.map fun x => encode (.byte x) := by
  rw [initBytes, List.map_append, initBytes, List.cons_append]

/-- The words of CHECKSUM around BYTE number `i`. -/
theorem checksumWords_split (msg : List Byte) {i : Nat} (hi : i < msg.length) :
    ∃ rest, checksumWords msg = initBytes (msg.take i) ++ encode (.byte msg[i]) :: rest := by
  have hmsg : initBytes msg = initBytes (msg.take i) ++ (msg[i] :: msg.drop (i + 1)).map fun x => encode (.byte x) := by
    rw [← initBytes_append, ← List.drop_eq_getElem_cons hi, List.take_append_drop]
  exact ⟨_, by rw [checksumWords_eq, hmsg, List.append_assoc, List.map_cons, List.cons_append]⟩

theorem totalCycles_initBytes (msg : List Byte) : totalCycles (initBytes msg) = 1 + 8 * msg.length := by
  have hbyte : (cyclesOf ∘ fun b : Byte => encode (.byte b)) = fun _ => 8 :=
    funext fun b => cyclesOf_of_byte (opField_append 3 b)
  rw [totalCycles, initBytes, List.map_cons, List.map_map, hbyte, List.map_const', List.sum_cons, List.sum_replicate]
  exact congrArg (1 + ·) (Nat.mul_comm _ _)

theorem totalDivisions_initBytes (msg : List Byte) : totalDivisions (initBytes msg) = 8 * msg.length := by
  have hbyte : (divisionsOf ∘ fun b : Byte => encode (.byte b)) = fun _ => 8 :=
    funext fun b => if_pos (opField_append 3 b)
  rw [totalDivisions, initBytes, List.map_cons, List.map_map, hbyte, List.map_const', List.sum_cons, List.sum_replicate]
  exact (Nat.zero_add _).trans (Nat.mul_comm _ _)

theorem totalCycles_checksumWords (msg : List Byte) : totalCycles (checksumWords msg) = 8 * msg.length + 2 := by
  have hread : totalCycles [encode .read] = 1 := rfl
  rw [checksumWords_eq, totalCycles_append, totalCycles_initBytes, hread]
  omega

theorem totalDivisions_checksumWords (msg : List Byte) : totalDivisions (checksumWords msg) = 8 * msg.length := by
  rw [checksumWords_eq, totalDivisions_append, totalDivisions_initBytes]
  rfl

/-- Where a CHECKSUM stream's words go on with `w` after the BYTEs of `msg`, `w` is accepted at edge `1 + 8n`. -/
theorem Ready.accepts_after_initBytes {s : State} (h : Ready s) {msg : List Byte} {w : CmdWord} {rest : List CmdWord}
    (hdrop : s.stream.drop s.hpc = initBytes msg ++ w :: rest) :
    ∃ u, run (1 + 8 * msg.length) s = .next u ∧ u.acceptedWord = some w := by
  obtain ⟨u, hu, hready, -, -, hrest, -⟩ := h.run_words hdrop
  exact ⟨u, totalCycles_initBytes msg ▸ hu, hready.acceptedWord hrest⟩

end Sys2Proof.Machine

open Sys2Proof Sys2Proof.Machine

/-- Settles O39: the words are accepted without a pause, each in its cycles (`Ready.run_words`), and as many edges divide as
the words have division steps; FEED and DRAIN are nine one-cycle words. -/
theorem checksumTakesEightCyclesPerByte : Obligations.ChecksumTakesEightCyclesPerByte := by
  refine ⟨fun s msg hr hk hp hdrop => ?_, fun s b hr hk hp hdrop => ?_⟩
  · have h : Ready s := ⟨hr, hk, hp⟩
    refine ⟨h.acceptedWord hdrop, fun i hi => ?_, h.accepts_after_initBytes hdrop, ?_, ?_⟩
    · obtain ⟨rest, hsplit⟩ := checksumWords_split msg hi
      obtain ⟨u, hu, hw⟩ := h.accepts_after_initBytes (hdrop.trans hsplit)
      rw [List.length_take_of_le (Nat.le_of_lt hi)] at hu
      exact ⟨u, hu, hw.trans (congrArg some (encode_byte _))⟩
    · rw [← totalCycles_checksumWords]
      exact h.run_words_ended hdrop (List.cons_ne_nil _ _)
    · obtain ⟨-, -, -, -, -, -, hdiv⟩ := h.run_words (rest := []) (hdrop.trans (List.append_nil _).symm)
      rwa [totalCycles_checksumWords, totalDivisions_checksumWords] at hdiv
  · have hle := hpc_le_of_drop_ne_nil (hdrop ▸ List.cons_ne_nil _ _)
    obtain ⟨t, ht, hended, -⟩ := run_oneCycleWords takesOneCycle_of_mem_feed_drain hr hk hp hle hdrop
    exact ⟨t, length_feed_drain b ▸ ht, hended⟩
end

section
/-! SUPPORT. The frame of every command, and the invariant through each of the machine's events
(10_state.md R13 to R19, 70_reset_and_hazards.md R100). -/

namespace Sys2Proof.Machine

/-- The host's fields and the model's own are the same in both states. -/
structure SameHost (s t : State) : Prop where
  stream : t.stream = s.stream
  hpc : t.hpc = s.hpc
  holding : t.holding = s.holding
  calls : t.calls = s.calls
  plan : t.plan = s.plan
  resetSeen : t.resetSeen = s.resetSeen
  draws : t.draws = s.draws
  drawSource : t.drawSource = s.drawSource

section
variable {i : Instr} {s t : State} (h : exec i s = .next t)
include h

/-- A command is the engine's: it leaves the host as it is. -/
theorem exec_sameHost : SameHost s t := by
  cases i <;> cases h <;> exact ⟨rfl, rfl, rfl, rfl, rfl, rfl, rfl, rfl⟩

theorem exec_writes_r (hr : t.r ≠ s.r) : i = .init ∨ i = .step ∨ ∃ b, i = .feed b ∨ i = .byte b := by
  cases i with
  | init => exact .inl rfl
  | step => exact .inr (.inl rfl)
  | feed b => exact .inr (.inr ⟨b, .inl rfl⟩)
  | byte b => exact .inr (.inr ⟨b, .inr rfl⟩)
  | read | reserved101 | reserved110 | reserved111 => cases h; exact absurd rfl hr

theorem exec_writes_k (hk : t.k ≠ s.k) : t.k = 7 ∧ ∃ b, i = .byte b := by
  cases i with
  | byte b => cases h; exact ⟨rfl, b, rfl⟩
  | init | feed | step | read | reserved101 | reserved110 | reserved111 => cases h; exact absurd rfl hk

theorem exec_writes_fault (hf : t.fault ≠ s.fault) : t.fault = true ∧ i.isReserved = true := by
  have hfault := exec_fault h
  cases hi : i.isReserved with
  | true => rw [hi, Bool.or_true] at hfault; exact ⟨hfault, rfl⟩
  | false => rw [hi, Bool.or_false] at hfault; exact absurd hfault hf

/-- OUT gains `pec_o` at a command with op 100, which is READ, and at no other. -/
theorem exec_out : t.out = s.out ++ (if i.op = 0b100 then [s.pecO] else []) := by
  cases i with
  | read => cases h; rfl
  | init | feed | step | byte | reserved101 | reserved110 | reserved111 => cases h; exact (List.append_nil _).symm

theorem exec_writes_out (ho : t.out ≠ s.out) : i = .read := by
  cases i with
  | read => rfl
  | init | feed | step | byte | reserved101 | reserved110 | reserved111 => cases h; exact absurd rfl ho

/-- No command moves a 1 into R[7:0] (R17). -/
theorem exec_lowByte (hlow : lowByte s.r = 0) : lowByte t.r = 0 := by
  cases i with
  | init => cases h; rfl
  | feed b => cases h; exact (lowByte_loadByte b s.r).trans hlow
  | step => cases h; exact lowByte_divStep hlow
  | byte b => cases h; exact lowByte_divStep ((lowByte_loadByte b s.r).trans hlow)
  | read | reserved101 | reserved110 | reserved111 => cases h; exact hlow

end

section
variable {s : State} (h : s.Inv)
include h

theorem State.Inv.losePower : s.losePower.Inv := by
  obtain ⟨-, hle, hhold⟩ := h
  exact ⟨fun hr => absurd hr Bool.false_ne_true, hle, hhold⟩

theorem State.Inv.resetEdge : s.resetEdge.Inv := by
  obtain ⟨-, hle, -⟩ := h
  exact ⟨fun _ => rfl, hle, fun hh => absurd hh Bool.false_ne_true⟩

/-- A host that holds after a busy edge has presented a word there. -/
theorem State.Inv.busyEdge (offer : Bool) : (busyEdge offer s).Inv := by
  obtain ⟨hlow, hle, -⟩ := h
  refine ⟨fun hr => lowByte_divStep (hlow hr), hle, fun hh => ?_⟩
  obtain ⟨w, hw⟩ := Option.isSome_iff_exists.mp hh
  exact State.lt_length_of_presented (s := s) hw

/-- The presented word is one of the stream, so the host can move past it. -/
theorem State.Inv.accept {offer : Bool} {w : CmdWord} {i : Instr} {u : State} (hw : s.presented offer = some w)
    (hu : exec i s = .next u) : u.advance.Inv := by
  obtain ⟨hlow, -, -⟩ := h
  have hsame := exec_sameHost hu
  refine ⟨fun hr => ?_, ?_, fun hh => absurd hh Bool.false_ne_true⟩
  · have hr' : s.resetSeen = true := hsame.resetSeen.symm.trans hr
    exact exec_lowByte (t := u) hu (hlow hr')
  · rw [State.advance_hpc, State.advance_stream, hsame.hpc, hsame.stream]
    exact State.lt_length_of_presented hw

/-- A longer stream keeps the host within it. -/
theorem State.Inv.queueCommands (ws : List CmdWord) : (s.queueCommands ws).Inv := by
  obtain ⟨hlow, hle, hhold⟩ := h
  have hlen : s.stream.length ≤ (s.queueCommands ws).stream.length := (List.prefix_append _ _).length_le
  exact ⟨hlow, hle.trans hlen, fun hh => (hhold hh).trans_le hlen⟩

end

end Sys2Proof.Machine

open Sys2Proof Sys2Proof.Machine

/-- Settles O17: what each constructor's command writes, and `exec_sameHost`. -/
theorem commandsWriteOnlyTheirElements : Obligations.CommandsWriteOnlyTheirElements := by
  intro i s t h
  obtain ⟨hstream, hhpc, hhold, hcalls, hplan, hreset, hdraws, hsource⟩ := exec_sameHost h
  exact ⟨⟨hstream, hhpc, hhold, hcalls, hplan, hreset, hdraws, hsource⟩, exec_writes_r h, exec_writes_k h,
    exec_writes_fault h, exec_writes_out h⟩

/-- Settles O34, event by event: a power loss, a reset edge, a busy edge, an accepting edge and an idle one. -/
theorem stepKeepsInvariant : Obligations.StepKeepsInvariant := by
  intro s t hinv h
  have hpop : s.popEvent.Inv := hinv
  obtain ⟨-, rfl⟩ | ⟨_, -, rfl⟩ | ⟨offer, -, -, rfl⟩ | ⟨_, _, _, -, -, hw, -, hu, rfl⟩ |
    ⟨_, -, -, -, rfl | ⟨_, _, _, -, -, -, -, rfl⟩⟩ := step_cases h
  · exact hpop.losePower
  · exact hpop.resetEdge
  · exact hpop.busyEdge offer
  · exact hpop.accept hw hu
  · exact hpop
  · exact hpop.queueCommands _

/-- Settles O35: R is 0, and the host stands at the first word and holds none. -/
theorem resetHasInvariant : Obligations.ResetHasInvariant :=
  fun _ _ _ => ⟨fun _ => rfl, Nat.zero_le _, fun hh => absurd hh Bool.false_ne_true⟩
end

section
/-! SUPPORT. The fixed cases: reset and power events, the edge that accepts BYTE, and the decoder's range
(10_state.md R26, 30_encoding.md R49, 60_exceptions.md R93, 70_reset_and_hazards.md R94, R98). -/

open Sys2Proof Sys2Proof.Machine

/-- Settles O1: the step is the reset edge, from the host's empty record. -/
theorem firstResetGivesResetState : Obligations.FirstResetGivesResetState :=
  ⟨⟨rfl, rfl, rfl, rfl, rfl⟩, fun _ => ⟨_, step_reset rfl, rfl, rfl, rfl, rfl, rfl, rfl⟩⟩

/-- Settles O2: a reset edge writes the engine's three elements and unbinds the host. -/
theorem resetEdgeClearsEngineOnly : Obligations.ResetEdgeClearsEngineOnly :=
  fun s h => ⟨s.popEvent.resetEdge, step_reset h, rfl, rfl, rfl, (State.cmdReadyO_iff _).mpr rfl, rfl, rfl, rfl, rfl, rfl,
    rfl⟩

/-- Settles O4: the step is `State.losePower`. -/
theorem powerLossDrawsEngineAfresh : Obligations.PowerLossDrawsEngineAfresh := fun _ => step_powerLoss

/-- Settles O8: the load, the first step, and seven owed. -/
theorem byteAcceptingEdge : Obligations.ByteAcceptingEdge := exec_byte

/-- Settles O20: each word is evaluated. -/
theorem writtenWordsDecode : Obligations.WrittenWordsDecode := by
  unfold Obligations.WrittenWordsDecode
  decide

/-- Settles O21: the decoder's check is the bound itself. -/
theorem onlyElevenBitWordsDecode : Obligations.OnlyElevenBitWordsDecode :=
  fun _ => ⟨fun h => if_pos (decide_eq_true h),
    fun h => if_neg fun hwf => Nat.not_le_of_lt h (of_decide_eq_true hwf)⟩

/-- Settles O26: after a reset the accepting edge is `exec`, which every command answers, and then the host's advance. -/
theorem stepRunsDecodedCommand : Obligations.StepRunsDecodedCommand := by
  intro s w hr hw
  obtain ⟨t, ht⟩ := exec_answers (decode w) s.popEvent
  refine ⟨t, ht, ?_⟩
  have hhpc : t.hpc = s.hpc := exec_hpc (s := s.popEvent) ht
  rw [← hhpc]
  exact step_of_acceptedWord hr hw ht
end

section
/-! SUPPORT. What steps and runs record: the host's index, OUT, the owed division steps, FAULT and the end of a run
(10_state.md R18, R19, 60_exceptions.md R83, R93, 70_reset_and_hazards.md R102). -/

namespace Sys2Proof.Machine

/-- A word on the port is the stream's at the host's index (R18). -/
theorem State.stream_getElem?_of_cmdI {s : State} {w : CmdWord} (h : s.cmdI = some w) : s.stream[s.hpc]? = some w := by
  cases he : s.nextEvent with
  | powerLoss => exact absurd ((State.cmdI_powerLoss he).symm.trans h) (Option.some_ne_none w).symm
  | edge rst offer => exact (State.presented_eq_some.mp ((State.cmdI_edge he).symm.trans h)).2

theorem step_out_of_accepted {s t : State} {w : CmdWord} (h : step s = .next t) (hw : s.acceptedWord = some w) :
    t.out = s.out ++ (if opField w = 0b100 then [s.pecO] else []) := by
  rw [step_accept hw] at h
  obtain ⟨-, u, hu, rfl⟩ := acceptEdge_next h
  exact op_decode w ▸ exec_out (s := s.popEvent) (t := u) hu

theorem step_out_of_not_accepted {s t : State} (h : step s = .next t) (hw : s.acceptedWord = none) : t.out = s.out := by
  obtain ⟨-, rfl⟩ | ⟨_, -, rfl⟩ | ⟨_, -, -, rfl⟩ | ⟨offer, w, u, he, hk, hpres, -⟩ |
    ⟨_, -, -, -, rfl | ⟨_, _, _, -, -, -, -, rfl⟩⟩ := step_cases h
  case inr.inr.inr.inl => exact absurd (hw.symm.trans (acceptedWord_of_presented he hk hpres)) (Option.some_ne_none w).symm
  all_goals rfl

/-- All owed steps paid: the engine is ready. -/
theorem PaidSteps.k_eq_zero {s t : State} (h : PaidSteps s.k.toNat s t) : t.k = 0 :=
  BitVec.eq_of_toNat_eq (Nat.add_right_cancel (h.k.trans (Nat.zero_add _).symm))

/-- Fewer paid than owed: the engine is busy. -/
theorem PaidSteps.k_ne_zero {n : Nat} {s t : State} (h : PaidSteps n s t) (hn : n < s.k.toNat) : t.k ≠ 0 := by
  intro hk
  have hk0 : t.k.toNat = 0 := congrArg BitVec.toNat hk
  have hpaid := h.k
  omega

theorem Transaction.exec_fault (i : Instr) (t : Transaction) : (t.exec i).fault = (t.fault || i.isReserved) := by
  cases i with
  | init | feed | step | byte | read => exact (Bool.or_false _).symm
  | reserved101 | reserved110 | reserved111 => exact (Bool.or_true _).symm

/-- FAULT after a list of words: it was 1, or one of the words is reserved. -/
theorem Transaction.run_fault (ws : List CmdWord) (t : Transaction) :
    (Transaction.run ws t).fault = (t.fault || ws.any fun w => (decode w).isReserved) := by
  induction ws generalizing t with
  | nil => exact (Bool.or_false _).symm
  | cons w ws ih => rw [Transaction.run_cons, ih, Transaction.exec_fault, List.any_cons, Bool.or_assoc]

/-- At the end of a run a step without a call, a reset or a power loss only moves the plan on (R93). -/
theorem step_of_runEnded {s : State} (hq : s.quietPlan = true) (hended : s.runEnded = true) (hc : s.calls = []) :
    step s = .next s.popEvent := by
  obtain ⟨hend, hk⟩ := (runEnded_iff s).mp hended
  obtain ⟨offer, he⟩ := nextEvent_of_quietPlan hq
  have hcmd : s.cmdI = none := Option.eq_none_iff_forall_ne_some.mpr fun w hw => by
    have hlt := (List.getElem?_eq_some_iff.mp (State.stream_getElem?_of_cmdI hw)).1
    omega
  rw [step_of_idle he hk hcmd]
  exact idleEdge_of_calls_nil offer (s := s.popEvent) hc

end Sys2Proof.Machine

open Sys2Proof Sys2Proof.Machine

/-- Settles O27: a step that accepts moves the host by one word, and no other moves it. -/
theorem streamIndexCountsAcceptedCommands : Obligations.StreamIndexCountsAcceptedCommands := by
  refine ⟨rfl, fun s t h => ?_, fun _ _ => State.stream_getElem?_of_cmdI⟩
  cases hw : s.acceptedWord with
  | none => exact step_hpc_of_not_accepted h hw
  | some w => exact step_hpc_of_accepted h hw

/-- Settles O33: a step that accepts writes OUT as its command does, and no other writes it. -/
theorem outputTraceRecordsReads : Obligations.OutputTraceRecordsReads := by
  refine ⟨rfl, fun s t h => ?_⟩
  cases hw : s.acceptedWord with
  | none => exact (step_out_of_not_accepted h hw).trans (List.append_nil _).symm
  | some w =>
    simp only [Option.map_some, Option.some_inj]
    exact step_out_of_accepted h hw

/-- Settles O29: each edge pays one owed step, so the engine is ready after K edges and not before. -/
theorem busyPeriodAlwaysEnds : Obligations.BusyPeriodAlwaysEnds := by
  refine fun s hq => ⟨?_, fun j hj => ?_⟩
  · obtain ⟨t, ht, hpaid⟩ := run_paidSteps hq (le_refl s.k.toNat)
    exact ⟨t, ht, t.cmdReadyO_iff.mpr hpaid.k_eq_zero, hpaid.r, hpaid.fault, hpaid.out, hpaid.hpc, hpaid.stream⟩
  · obtain ⟨u, hu, hpaid⟩ := run_paidSteps hq (Nat.le_of_lt hj)
    have hk := hpaid.k_ne_zero hj
    exact ⟨u, hu, Bool.eq_false_iff.mpr fun h => hk (u.cmdReadyO_iff.mp h), acceptedWord_of_busy hk⟩

/-- Settles O36: the run's FAULT is the transaction level's after the accepted words (R101), which is 1 if it was or if one of
them is reserved. -/
theorem cleanRunAcceptedNoReservedWord : Obligations.CleanRunAcceptedNoReservedWord := by
  intro n s t hq h hclean
  obtain ⟨ws, hws⟩ := run_acceptsWords hq h
  have hfault : t.fault = (s.fault || ws.any fun w => (decode w).isReserved) :=
    (congrArg Transaction.fault hws.settled).trans (Transaction.run_fault ws s.settled)
  obtain ⟨hs, hnone⟩ := Bool.or_eq_false_iff.mp (hfault.symm.trans hclean)
  rw [hws.acceptedSince_eq]
  exact ⟨hs, fun w hw => Bool.eq_false_iff.mpr (List.any_eq_false.mp hnone w hw)⟩

/-- Settles O37, by induction on the number of steps: each only moves the plan on. -/
theorem endedRunHoldsItsState : Obligations.EndedRunHoldsItsState := by
  intro n
  induction n with
  | zero => exact fun s _ hended _ => ⟨s, rfl, hended, rfl⟩
  | succ n ih =>
    intro s hq hended hc
    have hstep := step_of_runEnded hq hended hc
    rw [run_succ_of_step n hstep]
    exact ih s.popEvent (step_quietPlan hq hstep) hended hc
end

section
/-! SUPPORT. The host's call `checksum(data, length)`: its bytes, and the idle edge at which it is made
(20_memory.md R28, R29, 41_checksum.md R61, R64, 60_exceptions.md R80, R81). -/

namespace Sys2Proof.Machine

section
variable {c : ChecksumCall}

/-- A call within its buffer reads `data[0 .. length-1]`. -/
theorem ChecksumCall.bytes_eq_take {data : List Byte} (hd : c.data = some data) (hle : c.length ≤ data.length) :
    c.bytes = some (data.take c.length) := by
  rw [ChecksumCall.bytes, hd]
  exact readBuffer_eq_take hle

/-- An absent buffer, and a length past the buffer's end, give no bytes. -/
theorem ChecksumCall.bytes_eq_none (h : c.data = none ∨ ∃ data, c.data = some data ∧ data.length < c.length) :
    c.bytes = none := by
  rw [ChecksumCall.bytes]
  obtain hd | ⟨data, hd, hlt⟩ := h
  · rw [hd]
  · rw [hd]
    exact readBuffer_eq_none hlt

theorem takeCall_of_bytes {msg : List Byte} (h : c.bytes = some msg) (s : State) :
    takeCall c s = .next (s.queueCommands (checksumWords msg)) := by
  rw [takeCall, h]

theorem takeCall_of_bytes_none (h : c.bytes = none) (s : State) : takeCall c s = .refused .contractViolation := by
  rw [takeCall, h]

/-- A ready host that offers, with its stream used up, makes its next call. -/
theorem step_of_call {s : State} {rest : List ChecksumCall} (he : s.nextEvent = .edge false true) (hk : s.k = 0)
    (hs : s.stream[s.hpc]? = none) (hc : s.calls = c :: rest) : step s = takeCall c s.popEvent := by
  have hcmd : s.cmdI = none := Option.eq_none_iff_forall_ne_some.mpr fun w hw =>
    Option.some_ne_none w ((State.stream_getElem?_of_cmdI hw).symm.trans hs)
  rw [step_of_idle he hk hcmd]
  simp [idleEdge, hs, hc]

end

/-- A step leaves the stream and the calls as they are, or makes the next call's bytes into commands. -/
theorem step_stream_calls {s t : State} (h : step s = .next t) :
    (t.stream = s.stream ∧ t.calls = s.calls) ∨
    ∃ c rest msg, s.calls = c :: rest ∧ c.bytes = some msg ∧ t.stream = s.stream ++ checksumWords msg ∧ t.calls = rest := by
  obtain ⟨-, rfl⟩ | ⟨_, -, rfl⟩ | ⟨_, -, -, rfl⟩ | ⟨_, _, _, -, -, -, -, hu, rfl⟩ |
    ⟨_, -, -, -, rfl | ⟨c, rest, msg, -, -, hc, hb, rfl⟩⟩ := step_cases h
  case inr.inr.inr.inl => exact .inl ⟨(exec_sameHost hu).stream, (exec_sameHost hu).calls⟩
  case inr.inr.inr.inr.inr => exact .inr ⟨c, rest, msg, hc, hb, rfl, congrArg List.tail hc⟩
  all_goals exact .inl ⟨rfl, rfl⟩

end Sys2Proof.Machine

open Sys2Proof Sys2Proof.Machine

/-- Settles O40: the call has no bytes, and a step makes commands of bytes only. -/
theorem contractViolationRefused : Obligations.ContractViolationRefused := by
  intro c hviolation
  have hb : c.bytes = none := ChecksumCall.bytes_eq_none (hviolation.imp_left And.left)
  refine ⟨congrArg (Option.map crc8) hb, takeCall_of_bytes_none hb, fun s t hhead h => ?_⟩
  obtain hsame | ⟨c', rest, msg, hc, hb', -⟩ := step_stream_calls h
  · exact hsame
  · rw [hc, List.head?_cons, Option.some_inj] at hhead
    exact absurd ((hhead ▸ hb').symm.trans hb) (Option.some_ne_none msg)

/-- Settles O41: the edge makes the call, which queues the words of its bytes or has none. -/
theorem callBecomesChecksumStream : Obligations.CallBecomesChecksumStream := by
  intro s c rest he hk hs hc
  rw [step_of_call he hk hs hc]
  refine ⟨fun data hd hle => ?_, fun h => takeCall_of_bytes_none (ChecksumCall.bytes_eq_none h) _⟩
  have hb := ChecksumCall.bytes_eq_take hd hle
  have hrest : rest = s.calls.tail := (congrArg List.tail hc).symm
  refine ⟨congrArg (Option.map crc8) hb, ?_⟩
  rw [takeCall_of_bytes hb, hrest]
  rfl
end

section
/-! SUPPORT. A single flipped bit: the checksum is linear, and no message of one set bit has the checksum 0
(41_checksum.md R73, R75). -/

namespace Sys2Proof.Machine

/-- The 8-bit step loses no bit: bit 7 comes back as bit 0 of 0x07. -/
theorem eq_zero_of_narrowStep {c : Byte} (h : narrowStep c = 0) : c = 0 := by
  cases hbit : c.getLsbD 7 with
  | true =>
    rw [narrowStep, hbit, if_pos rfl] at h
    have h0 := congrArg (fun v : Byte => v.getLsbD 0) h
    simp at h0
  | false =>
    rw [narrowStep, hbit, if_neg Bool.false_ne_true] at h
    apply BitVec.eq_of_getLsbD_eq
    intro i hi
    by_cases hi7 : i = 7
    · rw [hi7, hbit]
      rfl
    · have hshift : (c <<< 1).getLsbD (i + 1) = c.getLsbD i := by
        rw [BitVec.getLsbD_shiftLeft, decide_eq_true (by omega : i + 1 < 8), decide_eq_false (by omega : ¬ i + 1 < 1),
          Nat.add_sub_cancel]
        rfl
      rw [← hshift, h, BitVec.ofNat_eq_ofNat, BitVec.getLsbD_zero, BitVec.getLsbD_zero]

theorem eq_zero_of_narrowSteps {n : Nat} {c : Byte} (h : narrowSteps n c = 0) : c = 0 := by
  induction n generalizing c with
  | zero => exact h
  | succ n ih => exact eq_zero_of_narrowStep (ih h)

/-- A byte that leaves the checksum 0 is the check byte of what came before (R74). -/
theorem crc8_concat_eq_zero {msg : List Byte} {b : Byte} (h : crc8 (msg ++ [b]) = 0) : crc8 msg = b := by
  rw [crc8_concat] at h
  exact BitVec.xor_eq_zero_iff.mp (eq_zero_of_narrowSteps h)

/-- Zero bytes at the end turn no other checksum into 0. -/
theorem crc8_append_zeros_eq_zero {msg : List Byte} {n : Nat} (h : crc8 (msg ++ List.replicate n 0) = 0) : crc8 msg = 0 := by
  induction n with
  | zero => rwa [List.replicate_zero, List.append_nil] at h
  | succ n ih =>
    rw [List.replicate_succ', ← List.append_assoc] at h
    exact ih (crc8_concat_eq_zero h)

/-- The message of `n` bytes that are 0 but for byte `i`. -/
def singleByte (n i : Nat) (e : Byte) : List Byte := (List.replicate n 0).set i e

theorem singleByte_eq {n i : Nat} (hi : i < n) (e : Byte) :
    singleByte n i e = List.replicate i 0 ++ [e] ++ List.replicate (n - (i + 1)) 0 := by
  have hlen : i < (List.replicate n (0 : Byte)).length := by rwa [List.length_replicate]
  rw [singleByte, List.set_eq_take_append_cons_drop, if_pos hlen, List.take_replicate, List.drop_replicate,
    Nat.min_eq_left (Nat.le_of_lt hi), List.append_assoc, List.singleton_append]

theorem crc8_singleByte_ne_zero {n i : Nat} (hi : i < n) {e : Byte} (he : e ≠ 0) : crc8 (singleByte n i e) ≠ 0 := by
  intro h
  rw [singleByte_eq hi] at h
  have hzeros : crc8 (List.replicate i 0) = e := crc8_concat_eq_zero (crc8_append_zeros_eq_zero h)
  exact he (hzeros.symm.trans (crc8_replicate_zero i))

/-- Changing byte `i` by `e` adds the message that is `e` at byte `i` and 0 elsewhere. -/
theorem set_xor_eq_zipWith (msg : List Byte) {i : Nat} (hi : i < msg.length) (e : Byte) :
    msg.set i (msg[i] ^^^ e) = List.zipWith (fun x y => x ^^^ y) msg (singleByte msg.length i e) := by
  apply List.ext_getElem
  · simp [singleByte]
  · intro j _ _
    rw [List.getElem_zipWith, List.getElem_set]
    simp only [singleByte, List.getElem_set, List.getElem_replicate]
    split
    · rename_i hij
      subst hij
      rfl
    · exact BitVec.xor_zero.symm

theorem crc8_set_xor (msg : List Byte) {i : Nat} (hi : i < msg.length) (e : Byte) :
    crc8 (msg.set i (msg[i] ^^^ e)) = crc8 msg ^^^ crc8 (singleByte msg.length i e) := by
  rw [set_xor_eq_zipWith msg hi]
  exact crc8_zipWith_xor (by rw [singleByte, List.length_set, List.length_replicate])

theorem oneBit_ne_zero {j : Nat} (hj : j < 8) : (1#8 <<< j) ≠ 0 := by
  have hbit : (1#8 <<< j).getLsbD j = true := by simp [hj]
  intro h
  rw [h] at hbit
  exact absurd hbit (by simp)

end Sys2Proof.Machine

open Sys2Proof Sys2Proof.Machine

/-- Settles O50: the flip adds the checksum of a message of one set bit, which is not 0. -/
theorem singleBitFlipChangesChecksum : Obligations.SingleBitFlipChangesChecksum := by
  intro msg i j hi hj
  have hchange : crc8 (msg.set i (msg[i] ^^^ (1#8 <<< j))) ^^^ crc8 msg = crc8 (singleByte msg.length i (1#8 <<< j)) := by
    rw [crc8_set_xor msg hi, BitVec.xor_comm (crc8 msg), BitVec.xor_assoc, BitVec.xor_self, BitVec.xor_zero]
  refine ⟨fun hsame => crc8_singleByte_ne_zero hi (oneBit_ne_zero hj) ?_, hchange⟩
  rw [← hchange, hsame, BitVec.xor_self]
  rfl

/-- Settles O52: both checksums are evaluated. -/
theorem sourceScenarios : Obligations.SourceScenarios := by
  unfold Obligations.SourceScenarios
  decide +kernel
end

section
/-! SUPPORT. A platform's step is its engines' steps, side by side (60_exceptions.md R91). -/

namespace Sys2Proof.Machine

/-- Where the engines answer, each answers its own step's next state. -/
theorem stepEngines_next {ss ts : List State} (h : stepEngines ss = .next ts) :
    List.Forall₂ (fun s t => step s = .next t) ss ts := by
  induction ss generalizing ts with
  | nil => cases h; exact .nil
  | cons s rest ih =>
    rw [stepEngines] at h
    split at h
    next t ts' hs hrest =>
      cases h
      exact .cons hs (ih hrest)
    all_goals cases h

theorem exists_stepEngines {ss : List State} (h : ∀ s ∈ ss, ∃ t, step s = .next t) : ∃ ts, stepEngines ss = .next ts := by
  induction ss with
  | nil => exact ⟨[], rfl⟩
  | cons s rest ih =>
    obtain ⟨⟨t, ht⟩, hall⟩ := List.forall_mem_cons.mp h
    obtain ⟨ts, hts⟩ := ih hall
    exact ⟨t :: ts, by simp only [stepEngines, ht, hts]⟩

theorem Platform.step_next {p q : Platform} (h : p.step = .next q) : stepEngines p.engines = .next q.engines := by
  rw [Platform.step] at h
  split at h
  next es hes =>
    cases h
    exact hes
  all_goals cases h

theorem Platform.step_of_stepEngines {p : Platform} {ts : List State} (h : stepEngines p.engines = .next ts) :
    p.step = .next ⟨ts⟩ := by
  rw [Platform.step, h]

end Sys2Proof.Machine

open Sys2Proof Sys2Proof.Machine

/-- Settles O54: `stepEngines` pairs each engine with its own step's next state. -/
theorem platformEnginesAreIndependent : Obligations.PlatformEnginesAreIndependent := by
  refine ⟨Platform.reset_length, fun p q h => ?_, fun p h => ?_⟩
  · have hpairs := stepEngines_next (Platform.step_next h)
    have hlen := hpairs.length_eq
    exact ⟨hlen.symm, fun i hi => ⟨_, List.getElem?_eq_getElem (hlen ▸ hi), hpairs.get hi (hlen ▸ hi)⟩⟩
  · obtain ⟨ts, hts⟩ := exists_stepEngines h
    exact ⟨⟨ts⟩, Platform.step_of_stepEngines hts⟩
end
